-- ==== Sys2Proof/Word.lean ====
section
/-! DEFINITION. The word types of the machine: bytes, 16-bit words, register numbers.
`00_scope.md` rules R5, R7: all values are unsigned, bit 0 is the least significant bit. -/

namespace Sys2Proof

/-- A general register, a timer, a byte of memory: 8 bits (`10_state.md` R11, R18, `20_memory.md` R40). -/
abbrev Byte := BitVec 8

/-- I, PC, a return address, an opcode: 16 bits (`10_state.md` R14, R15, R17, `30_encoding.md` R60). -/
abbrev Word := BitVec 16

/-- The number of a general register, 0 for V0 to 15 for VF (`10_state.md` R11). -/
abbrev Reg := Fin 16

/-- VF, the register that doubles as the flag (`10_state.md` R12). -/
abbrev vf : Reg := 15

/-- `zext_16(v)` of `00_scope.md` R8. -/
abbrev zext16 {n : Nat} (v : BitVec n) : Word := v.setWidth 16

end Sys2Proof
end

