-- ==== Sys2Proof/Config.lean ====
section
/-! DEFINITION. What is fixed for the machine: the sizes of `00_scope.md` R5, the behaviour options of R6 and the
one free value, the random byte. The font table stands in Machine/Ops.lean, beside the memory operations. -/

namespace Sys2Proof.Config

/-- `MEM_SIZE`: bytes of memory (`00_scope.md` R5). -/
abbrev memSize : Nat := 4096

/-- `ADDR_BITS`: width of an address immediate NNN (R5). -/
abbrev addrBits : Nat := 12

/-- `FONT_BASE`: address of the glyph '0' (R5). -/
abbrev fontBase : Nat := 0x000

/-- `FONT_GLYPH_BYTES`: bytes of one glyph (R5). -/
abbrev fontGlyphBytes : Nat := 5

/-- `FONT_GLYPHS`: glyphs of the font table (R5). -/
abbrev fontGlyphs : Nat := 16

/-- `FONT_SIZE`: bytes of the font table (R5). -/
abbrev fontSize : Nat := fontGlyphs * fontGlyphBytes

/-- `ROM_BASE`: load address and entry point of the program (R5). -/
abbrev romBase : Nat := 0x200

/-- `ROM_MAX`: the longest image, 4096 - 0x200 = 3584 bytes (R5). -/
abbrev romMax : Nat := memSize - romBase

/-- `NUM_V`: general registers (R5). -/
abbrev numV : Nat := 16

/-- `V_BITS`: width of a general register (R5). -/
abbrev vBits : Nat := 8

/-- `I_BITS`: width of I (R5). -/
abbrev iBits : Nat := 16

/-- `PC_BITS`: width of PC (R5). -/
abbrev pcBits : Nat := 16

/-- `NUM_KEYS`: key latch bits (R5). -/
abbrev numKeys : Nat := 16

/-- `TIMER_HZ`: tick events per second of real time; "no rule of the model depends on the number" (R5). -/
abbrev timerHz : Nat := 60

/-- `STACK_DEPTH`: entries of the return stack; "an implementer should treat this as a configurable constant" (R5). -/
abbrev stackDepth : Nat := 12

/-- `STACK_ENTRY_BITS`: width of a return address (R5). -/
abbrev stackEntryBits : Nat := 16

/-- `TIMER_BITS`: width of DT and ST (R5). -/
abbrev timerBits : Nat := 8

/-- `DISP_W`: columns of the display (R5). -/
abbrev dispW : Nat := 64

/-- `DISP_H`: rows of the display (R5). -/
abbrev dispH : Nat := 32

/-- `INSN_BYTES`: length of an instruction (R5). -/
abbrev insnBytes : Nat := 2

/-- `SHIFT_USES_VY` of `00_scope.md` R6: 8XY6 and 8XYE shift VY into VX. The spec takes false (D12). -/
def shiftUsesVy : Bool := false

/-- `LOADSTORE_INC_I` of R6: FX55 and FX65 add X + 1 to I afterwards. The spec takes false (D13). -/
def loadStoreIncI : Bool := false

/-- `LOGIC_RESETS_VF` of R6: 8XY1, 8XY2, 8XY3 also write VF <- 0. The spec takes false (D14). -/
def logicResetsVf : Bool := false

/-- `ADDI_SETS_VF` of R6: FX1E writes VF on I passing 0x0FFF. The spec takes false (D15). -/
def addISetsVf : Bool := false

/-- `RND` of R6: the byte that the randomness source gives to draw number k. DESIGN CHOICE (log 3): a free value with no
body, "the model treats rnd as a free input under no law" (`42_alu.md` R111, D28). -/
opaque rndByte : Nat → Byte

end Sys2Proof.Config
end

