-- ==== Sys2Proof/Syntax.lean ====
section
/-! DEFINITION. The 35 instructions of `30_encoding.md` R66, one constructor per row of the opcode table, in its order. -/

namespace Sys2Proof

/-- An instruction with its operands: `x`, `y` register numbers, `n` a nibble, `nn` a byte, `nnn` an address
(`30_encoding.md` R61, R63). The ignored Y field of SHR and SHL is kept (R69). -/
inductive Instr where
  /-- 0NNN SYS NNN: a machine-code call that this core does not have (R68, `40_flow.md` R80). -/
  | sys (nnn : BitVec 12)
  /-- 00E0 CLS: clear the display (`44_display.md` R130). -/
  | cls
  /-- 00EE RET: return (`40_flow.md` R81). -/
  | ret
  /-- 1NNN JP NNN: jump (R82). -/
  | jp (nnn : BitVec 12)
  /-- 2NNN CALL NNN: call (R83). -/
  | call (nnn : BitVec 12)
  /-- 3XNN SE VX, NN: skip if equal to the immediate (`41_skip.md` R90). -/
  | seImm (x : Reg) (nn : Byte)
  /-- 4XNN SNE VX, NN: skip if not equal to the immediate (R91). -/
  | sneImm (x : Reg) (nn : Byte)
  /-- 5XY0 SE VX, VY: skip if registers equal (R92). -/
  | seReg (x y : Reg)
  /-- 6XNN LD VX, NN: load immediate (`42_alu.md` R100). -/
  | ldImm (x : Reg) (nn : Byte)
  /-- 7XNN ADD VX, NN: add immediate without flag (R101). -/
  | addImm (x : Reg) (nn : Byte)
  /-- 8XY0 LD VX, VY: copy (R102). -/
  | ldReg (x y : Reg)
  /-- 8XY1 OR VX, VY (R103). -/
  | orReg (x y : Reg)
  /-- 8XY2 AND VX, VY (R104). -/
  | andReg (x y : Reg)
  /-- 8XY3 XOR VX, VY (R105). -/
  | xorReg (x y : Reg)
  /-- 8XY4 ADD VX, VY: add with carry out (R106). -/
  | addReg (x y : Reg)
  /-- 8XY5 SUB VX, VY: VX minus VY (R107). -/
  | subReg (x y : Reg)
  /-- 8XY6 SHR VX: shift right by one (R108). -/
  | shr (x y : Reg)
  /-- 8XY7 SUBN VX, VY: VY minus VX (R109). -/
  | subnReg (x y : Reg)
  /-- 8XYE SHL VX: shift left by one (R110). -/
  | shl (x y : Reg)
  /-- 9XY0 SNE VX, VY: skip if registers differ (`41_skip.md` R93). -/
  | sneReg (x y : Reg)
  /-- ANNN LD I, NNN (`43_index_memory.md` R120). -/
  | ldI (nnn : BitVec 12)
  /-- BNNN JP V0, NNN (`40_flow.md` R84). -/
  | jpV0 (nnn : BitVec 12)
  /-- CXNN RND VX, NN (`42_alu.md` R111). -/
  | rnd (x : Reg) (nn : Byte)
  /-- DXYN DRW VX, VY, N: draw a sprite (`44_display.md` R131). -/
  | drw (x y : Reg) (n : BitVec 4)
  /-- EX9E SKP VX: skip if the key is pressed (`41_skip.md` R94). -/
  | skp (x : Reg)
  /-- EXA1 SKNP VX: skip if the key is not pressed (R95). -/
  | sknp (x : Reg)
  /-- FX07 LD VX, DT (`45_timer_key.md` R140). -/
  | ldVxDt (x : Reg)
  /-- FX0A LD VX, K: wait for a key (R141). -/
  | ldVxK (x : Reg)
  /-- FX15 LD DT, VX (R142). -/
  | ldDtVx (x : Reg)
  /-- FX18 LD ST, VX (R143). -/
  | ldStVx (x : Reg)
  /-- FX1E ADD I, VX (`43_index_memory.md` R121). -/
  | addI (x : Reg)
  /-- FX29 LD F, VX: point I at a font glyph (R122). -/
  | ldF (x : Reg)
  /-- FX33 LD B, VX: store the three decimal digits (R123). -/
  | ldB (x : Reg)
  /-- FX55 LD [I], VX: store V0 through VX (R124). -/
  | ldMemVx (x : Reg)
  /-- FX65 LD VX, [I]: load V0 through VX (R125). -/
  | ldVxMem (x : Reg)
  deriving DecidableEq, Repr

end Sys2Proof
end

