-- ==== Sys2Proof/Decode.lean ====
section
/-! DEFINITION. From bits to instructions and back: the fields of a word, the decoder, total on any bytes, the encoder,
and the rows of the opcode map (`30_encoding.md` R61 to R69). -/

namespace Sys2Proof

/-! ## Fields of a word (R61) -/

/-- `OP` = op[15:12], the leading nibble. -/
def fieldOp (w : Word) : BitVec 4 := w.extractLsb' 12 4

/-- `X` = op[11:8] as a register number. -/
def fieldX (w : Word) : Reg := (w.extractLsb' 8 4).toFin

/-- `Y` = op[7:4] as a register number. -/
def fieldY (w : Word) : Reg := (w.extractLsb' 4 4).toFin

/-- `N` = op[3:0], the trailing nibble. -/
def fieldN (w : Word) : BitVec 4 := w.extractLsb' 0 4

/-- `NN` = op[7:0], the trailing byte. -/
def fieldNN (w : Word) : Byte := w.extractLsb' 0 8

/-- `NNN` = op[11:0]. -/
def fieldNNN (w : Word) : BitVec 12 := w.extractLsb' 0 Config.addrBits

/-! ## Formats (R62): a word from its fields -/

/-- Format NNN. -/
def fmtNNN (op : BitVec 4) (nnn : BitVec 12) : Word := op ++ nnn

/-- A register number as the four bits of an X or Y field. -/
def regBits (x : Reg) : BitVec 4 := BitVec.ofNat 4 x.val

/-- Formats XNN and, with a fixed trailing byte, Xss. -/
def fmtXNN (op : BitVec 4) (x : Reg) (nn : Byte) : Word := (op ++ regBits x : BitVec 8) ++ nn

/-- Formats XYN and, with a fixed trailing nibble, XYs. -/
def fmtXYN (op : BitVec 4) (x y : Reg) (n : BitVec 4) : Word :=
  (op ++ regBits x : BitVec 8) ++ (regBits y ++ n : BitVec 8)

/-! ## The decoder (R65, R66, R67) -/

/-- Category 0x0: CLS and RET are tested before SYS (R65). -/
def decode0 (w : Word) : Instr :=
  if w = 0x00E0#16 then .cls else if w = 0x00EE#16 then .ret else .sys (fieldNNN w)

/-- Category 0x8 is told apart by the trailing nibble. -/
def decode8 (w : Word) : Option Instr :=
  match (fieldN w).toNat with
  | 0x0 => some (.ldReg (fieldX w) (fieldY w))
  | 0x1 => some (.orReg (fieldX w) (fieldY w))
  | 0x2 => some (.andReg (fieldX w) (fieldY w))
  | 0x3 => some (.xorReg (fieldX w) (fieldY w))
  | 0x4 => some (.addReg (fieldX w) (fieldY w))
  | 0x5 => some (.subReg (fieldX w) (fieldY w))
  | 0x6 => some (.shr (fieldX w) (fieldY w))
  | 0x7 => some (.subnReg (fieldX w) (fieldY w))
  | 0xE => some (.shl (fieldX w) (fieldY w))
  | _ => none

/-- Category 0xE is told apart by the trailing byte. -/
def decodeE (w : Word) : Option Instr :=
  match (fieldNN w).toNat with
  | 0x9E => some (.skp (fieldX w))
  | 0xA1 => some (.sknp (fieldX w))
  | _ => none

/-- Category 0xF is told apart by the trailing byte. -/
def decodeF (w : Word) : Option Instr :=
  match (fieldNN w).toNat with
  | 0x07 => some (.ldVxDt (fieldX w))
  | 0x0A => some (.ldVxK (fieldX w))
  | 0x15 => some (.ldDtVx (fieldX w))
  | 0x18 => some (.ldStVx (fieldX w))
  | 0x1E => some (.addI (fieldX w))
  | 0x29 => some (.ldF (fieldX w))
  | 0x33 => some (.ldB (fieldX w))
  | 0x55 => some (.ldMemVx (fieldX w))
  | 0x65 => some (.ldVxMem (fieldX w))
  | _ => none

/-- `decode(op)` of R64: the instruction a word selects, or none where it matches no row of R66. -/
def decodeWord (w : Word) : Option Instr :=
  match (fieldOp w).toNat with
  | 0x0 => some (decode0 w)
  | 0x1 => some (.jp (fieldNNN w))
  | 0x2 => some (.call (fieldNNN w))
  | 0x3 => some (.seImm (fieldX w) (fieldNN w))
  | 0x4 => some (.sneImm (fieldX w) (fieldNN w))
  | 0x5 => if fieldN w = 0#4 then some (.seReg (fieldX w) (fieldY w)) else none
  | 0x6 => some (.ldImm (fieldX w) (fieldNN w))
  | 0x7 => some (.addImm (fieldX w) (fieldNN w))
  | 0x8 => decode8 w
  | 0x9 => if fieldN w = 0#4 then some (.sneReg (fieldX w) (fieldY w)) else none
  | 0xA => some (.ldI (fieldNNN w))
  | 0xB => some (.jpV0 (fieldNNN w))
  | 0xC => some (.rnd (fieldX w) (fieldNN w))
  | 0xD => some (.drw (fieldX w) (fieldY w) (fieldN w))
  | 0xE => decodeE w
  | _ => decodeF w

/-- The word of two bytes, the one at the lower address first: "fetch ... big-endian" (`20_memory.md` R44). -/
def wordOfBytes (hi lo : Byte) : Word := hi ++ lo

/-- The two bytes of a word as they lie in memory, lower address first (R44). -/
def bytesOfWord (w : Word) : List Byte := [w.extractLsb' 8 8, w.extractLsb' 0 8]

/-- Why bytes do not decode. -/
inductive DecodeError where
  /-- Fewer than two bytes are left: no instruction is shorter (R60). -/
  | truncated
  /-- The word matches no row of the opcode map (R67). -/
  | noRow (w : Word)
  deriving DecidableEq, Repr

/-- The decoder on a list of bytes: the first instruction and the bytes after it, or the reason there is none. -/
def decode : List Byte → Except DecodeError (Instr × List Byte)
  | hi :: lo :: rest =>
    match decodeWord (wordOfBytes hi lo) with
    | some i => .ok (i, rest)
    | none => .error (.noRow (wordOfBytes hi lo))
  | _ => .error .truncated

/-! ## The encoder (R62, R66) -/

/-- The word of an instruction. On a well-formed one it is the word of the opcode map. -/
def encode : Instr → Word
  | .sys nnn => fmtNNN 0x0 nnn
  | .cls => 0x00E0
  | .ret => 0x00EE
  | .jp nnn => fmtNNN 0x1 nnn
  | .call nnn => fmtNNN 0x2 nnn
  | .seImm x nn => fmtXNN 0x3 x nn
  | .sneImm x nn => fmtXNN 0x4 x nn
  | .seReg x y => fmtXYN 0x5 x y 0x0
  | .ldImm x nn => fmtXNN 0x6 x nn
  | .addImm x nn => fmtXNN 0x7 x nn
  | .ldReg x y => fmtXYN 0x8 x y 0x0
  | .orReg x y => fmtXYN 0x8 x y 0x1
  | .andReg x y => fmtXYN 0x8 x y 0x2
  | .xorReg x y => fmtXYN 0x8 x y 0x3
  | .addReg x y => fmtXYN 0x8 x y 0x4
  | .subReg x y => fmtXYN 0x8 x y 0x5
  | .shr x y => fmtXYN 0x8 x y 0x6
  | .subnReg x y => fmtXYN 0x8 x y 0x7
  | .shl x y => fmtXYN 0x8 x y 0xE
  | .sneReg x y => fmtXYN 0x9 x y 0x0
  | .ldI nnn => fmtNNN 0xA nnn
  | .jpV0 nnn => fmtNNN 0xB nnn
  | .rnd x nn => fmtXNN 0xC x nn
  | .drw x y n => fmtXYN 0xD x y n
  | .skp x => fmtXNN 0xE x 0x9E
  | .sknp x => fmtXNN 0xE x 0xA1
  | .ldVxDt x => fmtXNN 0xF x 0x07
  | .ldVxK x => fmtXNN 0xF x 0x0A
  | .ldDtVx x => fmtXNN 0xF x 0x15
  | .ldStVx x => fmtXNN 0xF x 0x18
  | .addI x => fmtXNN 0xF x 0x1E
  | .ldF x => fmtXNN 0xF x 0x29
  | .ldB x => fmtXNN 0xF x 0x33
  | .ldMemVx x => fmtXNN 0xF x 0x55
  | .ldVxMem x => fmtXNN 0xF x 0x65

/-! ## The opcode map as the spec prints it (R66), to hold the decoder against -/

/-- A row of the map: a word `op` selects it when `op & mask = match`, the exceptions of row 1 apart. -/
structure OpcodeRow where
  mask : Word
  bits : Word
  except : List Word
  deriving DecidableEq, Repr

def OpcodeRow.selects (r : OpcodeRow) (w : Word) : Bool := w &&& r.mask == r.bits && !r.except.contains w

/-- The row of R66 an instruction belongs to: its mask and match columns. -/
def opcodeRow : Instr → OpcodeRow
  | .sys _ => ⟨0xF000, 0x0000, [0x00E0, 0x00EE]⟩
  | .cls => ⟨0xFFFF, 0x00E0, []⟩
  | .ret => ⟨0xFFFF, 0x00EE, []⟩
  | .jp _ => ⟨0xF000, 0x1000, []⟩
  | .call _ => ⟨0xF000, 0x2000, []⟩
  | .seImm _ _ => ⟨0xF000, 0x3000, []⟩
  | .sneImm _ _ => ⟨0xF000, 0x4000, []⟩
  | .seReg _ _ => ⟨0xF00F, 0x5000, []⟩
  | .ldImm _ _ => ⟨0xF000, 0x6000, []⟩
  | .addImm _ _ => ⟨0xF000, 0x7000, []⟩
  | .ldReg _ _ => ⟨0xF00F, 0x8000, []⟩
  | .orReg _ _ => ⟨0xF00F, 0x8001, []⟩
  | .andReg _ _ => ⟨0xF00F, 0x8002, []⟩
  | .xorReg _ _ => ⟨0xF00F, 0x8003, []⟩
  | .addReg _ _ => ⟨0xF00F, 0x8004, []⟩
  | .subReg _ _ => ⟨0xF00F, 0x8005, []⟩
  | .shr _ _ => ⟨0xF00F, 0x8006, []⟩
  | .subnReg _ _ => ⟨0xF00F, 0x8007, []⟩
  | .shl _ _ => ⟨0xF00F, 0x800E, []⟩
  | .sneReg _ _ => ⟨0xF00F, 0x9000, []⟩
  | .ldI _ => ⟨0xF000, 0xA000, []⟩
  | .jpV0 _ => ⟨0xF000, 0xB000, []⟩
  | .rnd _ _ => ⟨0xF000, 0xC000, []⟩
  | .drw _ _ _ => ⟨0xF000, 0xD000, []⟩
  | .skp _ => ⟨0xF0FF, 0xE09E, []⟩
  | .sknp _ => ⟨0xF0FF, 0xE0A1, []⟩
  | .ldVxDt _ => ⟨0xF0FF, 0xF007, []⟩
  | .ldVxK _ => ⟨0xF0FF, 0xF00A, []⟩
  | .ldDtVx _ => ⟨0xF0FF, 0xF015, []⟩
  | .ldStVx _ => ⟨0xF0FF, 0xF018, []⟩
  | .addI _ => ⟨0xF0FF, 0xF01E, []⟩
  | .ldF _ => ⟨0xF0FF, 0xF029, []⟩
  | .ldB _ => ⟨0xF0FF, 0xF033, []⟩
  | .ldMemVx _ => ⟨0xF0FF, 0xF055, []⟩
  | .ldVxMem _ => ⟨0xF0FF, 0xF065, []⟩

/-! ## The host's probe -/

/-- The word that `nbits` bits numbered as the opcode table numbers them stand for; every bit above `nbits` is 0. -/
def tableWord (nbits w : Nat) : Word := BitVec.ofNat 16 (w % 2 ^ min nbits 16)

/-- The instruction the decoder reads from a table word laid out in memory order. -/
def decodeTableWord (nbits w : Nat) : Option Instr :=
  match decode (bytesOfWord (tableWord nbits w)) with
  | .ok (i, _) => some i
  | .error _ => none

end Sys2Proof
end

