-- ==== Sys2Proof/Machine/State.lean ====
section
/-! DEFINITION. The state of the machine: the thirteen items of `10_state.md` R10 and two fields of the model's own
(`rndIndex`, `schedule`), the reasons a step could stop, and the state right after reset (R28). -/

namespace Sys2Proof.Machine

/-- Memory, as the list of (address, byte) cells that differ from what an unlisted address reads as, addresses strictly
rising (log 6). -/
abbrev Memory := List Host.Cell

/-- `DISP`: rows of pixels, row y of column x; true is a set pixel (`10_state.md` R20). -/
abbrev Display := Vector (Vector Bool Config.dispW) Config.dispH

/-- `MODE` (`10_state.md` R21): "the engine has two operating states". -/
inductive Mode where
  | running
  | waitingForKey
  deriving DecidableEq, Repr

/-- `FCAUSE` (`60_exceptions.md` R150): no fault, or which of the five. -/
inductive FaultCause where
  | none
  | outOfBounds
  | stackOverflow
  | stackUnderflow
  | invalidOpcode
  | romTooLarge
  deriving DecidableEq, Repr

/-- `FAULT` (`10_state.md` R23): the record of a fatal condition. -/
structure FaultRecord where
  /-- `FAULTED` -/
  faulted : Bool
  /-- `FCAUSE` -/
  cause : FaultCause
  /-- `FOPCODE` -/
  opcode : Word
  /-- `FPC` -/
  pc : Word
  deriving DecidableEq, Repr

/-- The record with no fault: every field 0 (`10_state.md` R28, first row of `60_exceptions.md` R150). -/
def FaultRecord.clear : FaultRecord := ⟨false, .none, 0, 0⟩

/-- One move of one of the four agents (`10_state.md` R26). -/
inductive AgentEvent where
  /-- The core executes one instruction, or observes the keypad once while waiting. -/
  | step
  /-- The timer decrements DT and ST toward 0. -/
  | tick
  /-- The keypad drives a new value on `key_in`. -/
  | keyIn (key : BitVec 16)
  /-- The host resets the machine. -/
  | reset
  /-- The host's "`reset` then `load(rom)`". -/
  | resetLoad (rom : List Byte)
  deriving DecidableEq, Repr

structure State where
  /-- `MEM` (`20_memory.md` R40) -/
  mem : Memory
  /-- `V` (`10_state.md` R11) -/
  v : Vector Byte Config.numV
  /-- `I` (R14) -/
  i : Word
  /-- `PC` (R15) -/
  pc : Word
  /-- `STACK` (R17) -/
  stack : Vector Word Config.stackDepth
  /-- `SP` (R17): "0 <= SP <= 12" -/
  sp : Fin (Config.stackDepth + 1)
  /-- `DT` (R18) -/
  dt : Byte
  /-- `ST` (R18) -/
  st : Byte
  /-- `KEY` (R19): bit k is key k -/
  key : BitVec 16
  /-- `DISP` (R20) -/
  disp : Display
  /-- `MODE` (R21) -/
  mode : Mode
  /-- `WAITREG` (R22) -/
  waitReg : Reg
  /-- `FAULT` (R23) -/
  fault : FaultRecord
  /-- The model's own: how many random bytes have been drawn (log 3). -/
  rndIndex : Nat
  /-- The model's own: the agents' moves still to come, oldest first; empty, the core steps (log 2). -/
  schedule : List AgentEvent
  deriving DecidableEq, Repr

/-- Why a step could stop with a fault: never. Each of the five fatal conditions of `60_exceptions.md` R150 has an entry
that the spec describes (R152, R153), so taking one is a NEXT state and the type has no constructor (log 1). Safe: nothing
is left out, the fault record of State holds what the spec says a fault leaves. -/
inductive Fault
  deriving DecidableEq, Repr

/-- Why a step could be refused. -/
inductive Refusal where
  /-- Raised by an arm of exec whose instruction has no meaning yet; no arm raises it. Safe: the machine stops. -/
  | notModelled (mnemonic : String)
  deriving DecidableEq, Repr

/-- What a meaning answers. -/
abbrev Result := Host.Outcome State Fault Refusal

/-- The machine right after the `reset` event, before `load` (`10_state.md` R28, `70_reset_and_hazards.md` R180). Memory
lists nothing: an unlisted address reads as its reset content. `rndIndex` and `schedule` are the model's own fields,
DESIGN CHOICE (log 2, log 3). -/
def State.reset : State where
  mem := []
  v := Vector.replicate Config.numV 0
  i := 0
  pc := 0x200
  stack := Vector.replicate Config.stackDepth 0
  sp := 0
  dt := 0
  st := 0
  key := 0
  disp := Vector.replicate Config.dispH (Vector.replicate Config.dispW false)
  mode := .running
  waitReg := 0
  fault := .clear
  rndIndex := 0
  schedule := []

end Sys2Proof.Machine
end

