-- ==== Sys2Proof/Machine/Ops.lean ====
section
/-! DEFINITION. The named operations over memory, registers, the return stack and the display, the two ways PC advances,
and taking a fault. -/

namespace Sys2Proof.Machine

/-! ## Memory (`20_memory.md`) -/

/-- The 80 font bytes, glyph '0' to glyph 'F' (`70_reset_and_hazards.md` R181). -/
def fontTable : List Byte :=
  [0xF0, 0x90, 0x90, 0x90, 0xF0] ++ [0x20, 0x60, 0x20, 0x20, 0x70] ++ [0xF0, 0x10, 0xF0, 0x80, 0xF0] ++
  [0xF0, 0x10, 0xF0, 0x10, 0xF0] ++ [0x90, 0x90, 0xF0, 0x10, 0x10] ++ [0xF0, 0x80, 0xF0, 0x10, 0xF0] ++
  [0xF0, 0x80, 0xF0, 0x90, 0xF0] ++ [0xF0, 0x10, 0x20, 0x40, 0x40] ++ [0xF0, 0x90, 0xF0, 0x90, 0xF0] ++
  [0xF0, 0x90, 0xF0, 0x10, 0xF0] ++ [0xF0, 0x90, 0xF0, 0x90, 0x90] ++ [0xE0, 0x90, 0xE0, 0x90, 0xE0] ++
  [0xF0, 0x80, 0x80, 0x80, 0xF0] ++ [0xE0, 0x90, 0x90, 0x90, 0xE0] ++ [0xF0, 0x80, 0xF0, 0x80, 0xF0] ++
  [0xF0, 0x80, 0xF0, 0x80, 0x80]

/-- What address `a` holds after reset, and what an unlisted address reads as: the font at `FONT_BASE`, 0 elsewhere
(`20_memory.md` R41, `10_state.md` R28). -/
def resetByte (a : Nat) : Byte :=
  if Config.fontBase ≤ a ∧ a < Config.fontBase + Config.fontSize then fontTable.getD (a - Config.fontBase) 0 else 0

/-- The byte at address `a`. Callers check the bound first (R43, R126). -/
def Memory.read : Memory → Nat → Byte
  | [], a => resetByte a
  | (b, w) :: m, a => if a = b then w else Memory.read m a

/-- Put a cell in front, unless it holds what its address reads as unlisted. -/
def Memory.cons (a : Nat) (x : Byte) (m : Memory) : Memory := if x = resetByte a then m else (a, x) :: m

/-- Store byte `x` at address `a`, keeping the canonical form. -/
def Memory.write : Memory → Nat → Byte → Memory
  | [], a, x => Memory.cons a x []
  | (b, w) :: m, a, x =>
    if a < b then Memory.cons a x ((b, w) :: m)
    else if a = b then Memory.cons a x m
    else (b, w) :: Memory.write m a x

/-- Store a list of bytes at consecutive addresses from `a` up (R45). -/
def Memory.writeBytes : Memory → Nat → List Byte → Memory
  | m, _, [] => m
  | m, a, x :: xs => Memory.writeBytes (Memory.write m a x) (a + 1) xs

/-- The `n` bytes at consecutive addresses from `a` up. -/
def Memory.readBytes (m : Memory) (a : Nat) : Nat → List Byte
  | 0 => []
  | n + 1 => Memory.read m a :: Memory.readBytes m (a + 1) n

/-- The canonical form from address `lo` up: addresses strictly rising and below 4096, no cell equal to what its address
reads as unlisted. -/
def Memory.wfFrom : Nat → Memory → Bool
  | _, [] => true
  | lo, (a, x) :: m => lo ≤ a && a < Config.memSize && x != resetByte a && Memory.wfFrom (a + 1) m

/-- Memory is in its canonical form. -/
def Memory.wf (m : Memory) : Bool := Memory.wfFrom 0 m

/-! ## General registers (`10_state.md` R11) -/

/-- `V[x]`. -/
def State.getV (s : State) (x : Reg) : Byte := s.v[x.val]

/-- `V[x] <- b`. -/
def State.setV (s : State) (x : Reg) (b : Byte) : State := { s with v := s.v.set x.val b }

/-- `V[k] <- b` for successive bytes `b` of the list, from register `k` up; bytes past V15 have no register. -/
def State.setVs (s : State) : Nat → List Byte → State
  | _, [] => s
  | k, b :: bs => if h : k < Config.numV then State.setVs (s.setV ⟨k, h⟩ b) (k + 1) bs else s

/-- `V[k]` to `V[k + n - 1]`, the first `n` registers from register `k` up. -/
def State.getVs (s : State) : Nat → Nat → List Byte
  | _, 0 => []
  | k, n + 1 => if h : k < Config.numV then s.getV ⟨k, h⟩ :: State.getVs s (k + 1) n else []

/-! ## How PC moves (`10_state.md` R16) -/

/-- `A + 2`: the address of the instruction after the one at PC. -/
def State.nextPc (s : State) : Word := s.pc + BitVec.ofNat Config.pcBits Config.insnBytes

/-- `A + 4`: the address of the instruction after that one. -/
def State.skipPc (s : State) : Word := s.pc + BitVec.ofNat Config.pcBits (2 * Config.insnBytes)

/-- `PC <- A + 2`. -/
def State.advance (s : State) : State := { s with pc := s.nextPc }

/-- A skip: `PC <- A + 4` if the condition holds, else `PC <- A + 2` (`41_skip.md`). -/
def State.skipIf (s : State) (c : Bool) : State := { s with pc := if c then s.skipPc else s.nextPc }

/-- `PC <- target`. -/
def State.jump (s : State) (target : Word) : State := { s with pc := target }

/-! ## The return stack (`10_state.md` R17) -/

/-- `push`: the stack with `a` in entry SP and SP one more, or none at depth 12 (`40_flow.md` R83). -/
def State.push (s : State) (a : Word) : Option State :=
  if h : s.sp.val < Config.stackDepth then
    some { s with stack := s.stack.set s.sp.val a, sp := ⟨s.sp.val + 1, Nat.succ_lt_succ h⟩ }
  else none

/-- `pop`: entry SP - 1 and the state with SP one less, the entry left in place, or none at depth 0 (R81). -/
def State.pop (s : State) : Option (Word × State) :=
  if h : 0 < s.sp.val then
    some (s.stack[s.sp.val - 1]'(by have := s.sp.isLt; omega),
      { s with sp := ⟨s.sp.val - 1, by have := s.sp.isLt; omega⟩ })
  else none

/-! ## The display (`44_display.md` R132, R133) -/

/-- `DISP[x,y]`. -/
def Display.pixel (d : Display) (x : Fin Config.dispW) (y : Fin Config.dispH) : Bool := d[y.val][x.val]

/-- `DISP[x,y] <- on`. -/
def Display.setPixel (d : Display) (x : Fin Config.dispW) (y : Fin Config.dispH) (on : Bool) : Display :=
  d.set y.val (d[y.val].set x.val on)

/-- The display with every pixel unset (R130). -/
def Display.clear : Display := Vector.replicate Config.dispH (Vector.replicate Config.dispW false)

/-- Column `n mod 64`. -/
def wrapX (n : Nat) : Fin Config.dispW := ⟨n % Config.dispW, Nat.mod_lt _ (by decide)⟩

/-- Row `n mod 32`. -/
def wrapY (n : Nat) : Fin Config.dispH := ⟨n % Config.dispH, Nat.mod_lt _ (by decide)⟩

/-- A display being drawn on, and whether a pixel went from set to unset so far. -/
structure Canvas where
  disp : Display
  hit : Bool
  deriving DecidableEq, Repr

/-- A 1 bit of the sprite on one pixel: the pixel is inverted, and a set pixel is a collision (R133). -/
def Canvas.flip (c : Canvas) (x : Fin Config.dispW) (y : Fin Config.dispH) : Canvas :=
  ⟨Display.setPixel c.disp x y (!Display.pixel c.disp x y), c.hit || Display.pixel c.disp x y⟩

/-- The first `k` columns of one sprite row `b`: bit 7 - col lands on column `x0 + col` (R132). -/
def Canvas.drawRow (x0 y : Nat) (b : Byte) (c : Canvas) : Nat → Canvas
  | 0 => c
  | k + 1 =>
    let c' := Canvas.drawRow x0 y b c k
    if b.getLsbD (7 - k) then c'.flip (wrapX (x0 + k)) (wrapY y) else c'

/-- A sprite, one byte a row from row `y0` down (R131, R132). -/
def Canvas.drawSprite (x0 : Nat) : Nat → List Byte → Canvas → Canvas
  | _, [], c => c
  | y0, b :: bs, c => Canvas.drawSprite x0 (y0 + 1) bs (Canvas.drawRow x0 y0 b c 8)

/-! ## Taking a fault (`60_exceptions.md` R152) -/

/-- `raise F(opcode, pc)`: nothing of the event is committed, the fault record is written and nothing else. There is no
handler, no saved state and no return (R152, R153); only reset clears the record. -/
def raise (cause : FaultCause) (opcode pc : Word) (s : State) : Result :=
  .next { s with fault := ⟨true, cause, opcode, pc⟩ }

/-- `raise F(opcode = op, pc = A)` by an executing instruction: `op` is its own word, `A` is PC (log 4). -/
def raiseAt (cause : FaultCause) (i : Instr) (s : State) : Result := raise cause (encode i) s.pc s

end Sys2Proof.Machine
end

