-- ==== Sys2Proof/Machine/Flags.lean ====
section
/-! DEFINITION. The flag: what VF becomes, and when it is written (`10_state.md` R12, R13, `42_alu.md` R112, R113). -/

namespace Sys2Proof.Machine

/-- VF <- 1 or 0. -/
def flagByte (c : Bool) : Byte := if c then 1 else 0

/-- "Carry is 1 exactly when the true sum a + b is 256 or more" (R112). -/
def carry (a b : Byte) : Bool := decide (256 ≤ a.toNat + b.toNat)

/-- The inverse of the borrow of a - b: 1 when a >= b, "VF=1 means no borrow occurred" (R112). -/
def noBorrow (a b : Byte) : Bool := decide (b.toNat ≤ a.toNat)

/-- The bit a right shift pushes out, bit 0 (R108). -/
def shiftedOutRight (a : Byte) : Bool := a.getLsbD 0

/-- The bit a left shift pushes out, bit 7 (R110). -/
def shiftedOutLeft (a : Byte) : Bool := a.getLsbD 7

/-- The result to V[X], then the flag to V[15]: "VF is written last" (`10_state.md` R13). -/
def State.setVThenFlag (s : State) (x : Reg) (result : Byte) (flag : Bool) : State :=
  (s.setV x result).setV vf (flagByte flag)

/-- VF after OR, AND, XOR: unchanged, or 0 under `LOGIC_RESETS_VF` (`42_alu.md` R103, `00_scope.md` R6). -/
def State.afterLogic (s : State) : State := if Config.logicResetsVf then s.setV vf 0 else s

/-- VF after FX1E: unchanged, or whether the sum passed 0x0FFF under `ADDI_SETS_VF` (`43_index_memory.md` R121,
`00_scope.md` R6). -/
def State.afterAddI (s : State) (sum : Nat) : State :=
  if Config.addISetsVf then s.setV vf (flagByte (decide (0x0FFF < sum))) else s

end Sys2Proof.Machine
end

