-- ==== Sys2Proof/Machine/Operands.lean ====
section
/-! DEFINITION. The operand forms: the one data addressing mode (`43_index_memory.md` R126), the glyph and key numbers
taken from a register, the random byte and the key that ends a wait. -/

namespace Sys2Proof.Machine

/-- `EA(k) = I + k` on naturals, never reduced (R126). -/
def State.ea (s : State) (k : Nat) : Nat := s.i.toNat + k

/-- A transfer of `n` bytes from I up lies below 4096; an empty one is not checked (R126, `44_display.md` R131). -/
def State.transferFits (s : State) (n : Nat) : Bool := n == 0 || decide (s.ea (n - 1) < Config.memSize)

/-- `V[X][3:0]`: only the low four bits select a key or a glyph (`41_skip.md` R94, `43_index_memory.md` R122). -/
def State.lowNibble (s : State) (x : Reg) : BitVec 4 := (s.getV x).extractLsb' 0 4

/-- `KEY[k]`. -/
def State.keyDown (s : State) (k : Nat) : Bool := s.key.getLsbD k

/-- `FONT_BASE + 5 * d` (R122). -/
def glyphAddress (d : BitVec 4) : Word := BitVec.ofNat Config.iBits (Config.fontBase + Config.fontGlyphBytes * d.toNat)

/-- What a shift shifts: V[X], or V[Y] under `SHIFT_USES_VY` (`42_alu.md` R108, `00_scope.md` R6). -/
def State.shiftOperand (s : State) (x y : Reg) : Byte := if Config.shiftUsesVy then s.getV y else s.getV x

/-- I after a block transfer of V0..VX: unchanged, or plus X + 1 under `LOADSTORE_INC_I` (R124, `00_scope.md` R6). -/
def State.afterTransfer (s : State) (x : Reg) : State :=
  if Config.loadStoreIncI then { s with i := s.i + BitVec.ofNat Config.iBits (x.val + 1) } else s

/-- The byte the randomness input supplies to this step, a free value (`42_alu.md` R111, log 3). -/
def State.rndByte (s : State) : Byte := Config.rndByte s.rndIndex

/-- One byte has been drawn. -/
def State.rndDrawn (s : State) : State := { s with rndIndex := s.rndIndex + 1 }

/-- The smallest pressed key number, from `k` up, `n` keys looked at. -/
def lowestKeyFrom (key : BitVec 16) : Nat → Nat → Option Nat
  | _, 0 => none
  | k, n + 1 => if key.getLsbD k then some k else lowestKeyFrom key (k + 1) n

/-- "the smallest k with KEY[k] = 1" (`45_timer_key.md` R144), or none. -/
def lowestKey (key : BitVec 16) : Option Nat := lowestKeyFrom key 0 Config.numKeys

end Sys2Proof.Machine
end

