-- ==== Sys2Proof/Machine/Alu.lean ====
section
/-! DEFINITION. Register load, arithmetic, logic, shift and random (`42_alu.md`). -/

namespace Sys2Proof.Machine

/-- R100: `V[X] <- NN`. -/
def execLdImm (x : Reg) (nn : Byte) (s : State) : Result := .next (s.setV x nn).advance

/-- R101: `V[X] <- (V[X] + NN) mod 256`, no flag. -/
def execAddImm (x : Reg) (nn : Byte) (s : State) : Result := .next (s.setV x (s.getV x + nn)).advance

/-- R102: `V[X] <- V[Y]`. -/
def execLdReg (x y : Reg) (s : State) : Result := .next (s.setV x (s.getV y)).advance

/-- R103: `V[X] <- V[X] | V[Y]`. -/
def execOrReg (x y : Reg) (s : State) : Result := .next (s.setV x (s.getV x ||| s.getV y)).afterLogic.advance

/-- R104: `V[X] <- V[X] & V[Y]`. -/
def execAndReg (x y : Reg) (s : State) : Result := .next (s.setV x (s.getV x &&& s.getV y)).afterLogic.advance

/-- R105: `V[X] <- V[X] ^ V[Y]`. -/
def execXorReg (x y : Reg) (s : State) : Result := .next (s.setV x (s.getV x ^^^ s.getV y)).afterLogic.advance

/-- R106: the sum modulo 256, then VF <- carry. -/
def execAddReg (x y : Reg) (s : State) : Result :=
  .next (s.setVThenFlag x (s.getV x + s.getV y) (carry (s.getV x) (s.getV y))).advance

/-- R107: VX minus VY modulo 256, then VF <- not borrow. -/
def execSubReg (x y : Reg) (s : State) : Result :=
  .next (s.setVThenFlag x (s.getV x - s.getV y) (noBorrow (s.getV x) (s.getV y))).advance

/-- R108: shift right by one, then VF <- the bit shifted out. -/
def execShr (x y : Reg) (s : State) : Result :=
  .next (s.setVThenFlag x (s.shiftOperand x y >>> 1) (shiftedOutRight (s.shiftOperand x y))).advance

/-- R109: VY minus VX modulo 256, then VF <- not borrow. -/
def execSubnReg (x y : Reg) (s : State) : Result :=
  .next (s.setVThenFlag x (s.getV y - s.getV x) (noBorrow (s.getV y) (s.getV x))).advance

/-- R110: shift left by one, then VF <- the bit shifted out. -/
def execShl (x y : Reg) (s : State) : Result :=
  .next (s.setVThenFlag x (s.shiftOperand x y <<< 1) (shiftedOutLeft (s.shiftOperand x y))).advance

/-- R111: `V[X] <- rnd & NN`; exactly one random byte is drawn. -/
def execRnd (x : Reg) (nn : Byte) (s : State) : Result := .next (s.setV x (s.rndByte &&& nn)).rndDrawn.advance

end Sys2Proof.Machine
end

