-- ==== Sys2Proof/Machine/Flow.lean ====
section
/-! DEFINITION. Control transfer: SYS, RET, JP, CALL, JP V0 (`40_flow.md`). -/

namespace Sys2Proof.Machine

/-- R80: `raise InvalidOpcode(opcode = op, pc = A)`, always (`30_encoding.md` R68). -/
def execSys (nnn : BitVec 12) (s : State) : Result := raiseAt .invalidOpcode (.sys nnn) s

/-- R81: `StackUnderflow` when SP = 0; else SP <- SP - 1 and PC <- STACK[SP]. -/
def execRet (s : State) : Result :=
  match s.pop with
  | none => raiseAt .stackUnderflow .ret s
  | some (a, s') => .next (s'.jump a)

/-- R82: `PC <- zext_16(NNN)`. -/
def execJp (nnn : BitVec 12) (s : State) : Result := .next (s.jump (zext16 nnn))

/-- R83: `StackOverflow` when SP = 12; else push A + 2 and PC <- zext_16(NNN). -/
def execCall (nnn : BitVec 12) (s : State) : Result :=
  match s.push s.nextPc with
  | none => raiseAt .stackOverflow (.call nnn) s
  | some s' => .next (s'.jump (zext16 nnn))

/-- R84: `PC <- zext_16(NNN) + zext_16(V[0])`. -/
def execJpV0 (nnn : BitVec 12) (s : State) : Result := .next (s.jump (zext16 nnn + zext16 (s.getV 0)))

end Sys2Proof.Machine
end

