-- ==== Sys2Proof/Machine/Graphics.lean ====
section
/-! DEFINITION. The display instructions: CLS and DRW (`44_display.md`). -/

namespace Sys2Proof.Machine

/-- R130: every pixel unset; VF is not written. -/
def execCls (s : State) : Result := .next { s with disp := Display.clear }.advance

/-- The sprite of DXYN drawn on the display as it stands: row r is the byte at I + r, its pixels from column V[X], row
V[Y] (R131, R132). -/
def State.drawn (s : State) (x y : Reg) (n : BitVec 4) : Canvas :=
  Canvas.drawSprite (s.getV x).toNat (s.getV y).toNat (Memory.readBytes s.mem (s.ea 0) n.toNat) ⟨s.disp, false⟩

/-- R131: `OutOfBounds` when N > 0 and I + N - 1 >= 4096; else the sprite is drawn, then VF <- collision. -/
def execDrw (x y : Reg) (n : BitVec 4) (s : State) : Result :=
  if s.transferFits n.toNat then
    .next ({ s with disp := (s.drawn x y n).disp }.setV vf (flagByte (s.drawn x y n).hit)).advance
  else raiseAt .outOfBounds (.drw x y n) s

end Sys2Proof.Machine
end

