-- ==== Sys2Proof/Machine/IndexMemory.lean ====
section
/-! DEFINITION. The index register and memory transfer: LD I, ADD I, LD F, LD B, LD [I], LD VX,[I] (`43_index_memory.md`). -/

namespace Sys2Proof.Machine

/-- R120: `I <- zext_16(NNN)`. -/
def execLdI (nnn : BitVec 12) (s : State) : Result := .next { s with i := zext16 nnn }.advance

/-- R121: `I <- (I + zext_16(V[X])) mod 65536`, no flag, no fault. -/
def execAddI (x : Reg) (s : State) : Result :=
  .next ({ s with i := s.i + zext16 (s.getV x) }.afterAddI (s.ea (s.getV x).toNat)).advance

/-- R122: `I <- FONT_BASE + 5 * V[X][3:0]`. -/
def execLdF (x : Reg) (s : State) : Result := .next { s with i := glyphAddress (s.lowNibble x) }.advance

/-- The three decimal digits of a byte, hundreds first (R123). -/
def decimalDigits (b : Byte) : List Byte :=
  [BitVec.ofNat 8 (b.toNat / 100), BitVec.ofNat 8 (b.toNat / 10 % 10), BitVec.ofNat 8 (b.toNat % 10)]

/-- R123: `OutOfBounds` when I + 2 >= 4096; else hundreds, tens, ones to I, I + 1, I + 2. -/
def execLdB (x : Reg) (s : State) : Result :=
  if s.transferFits 3 then
    .next { s with mem := Memory.writeBytes s.mem (s.ea 0) (decimalDigits (s.getV x)) }.advance
  else raiseAt .outOfBounds (.ldB x) s

/-- R124: `OutOfBounds` when I + X >= 4096; else V0 to VX to I up, I unchanged. -/
def execLdMemVx (x : Reg) (s : State) : Result :=
  if s.transferFits (x.val + 1) then
    .next ({ s with mem := Memory.writeBytes s.mem (s.ea 0) (s.getVs 0 (x.val + 1)) }.afterTransfer x).advance
  else raiseAt .outOfBounds (.ldMemVx x) s

/-- R125: `OutOfBounds` when I + X >= 4096; else the bytes from I up to V0 to VX, I unchanged. -/
def execLdVxMem (x : Reg) (s : State) : Result :=
  if s.transferFits (x.val + 1) then
    .next ((s.setVs 0 (Memory.readBytes s.mem (s.ea 0) (x.val + 1))).afterTransfer x).advance
  else raiseAt .outOfBounds (.ldVxMem x) s

end Sys2Proof.Machine
end

