-- ==== Sys2Proof/Machine/Skip.lean ====
section
/-! DEFINITION. Conditional skips: SE, SNE, SKP, SKNP (`41_skip.md`). -/

namespace Sys2Proof.Machine

/-- R90: skip if V[X] = NN. -/
def execSeImm (x : Reg) (nn : Byte) (s : State) : Result := .next (s.skipIf (s.getV x == nn))

/-- R91: skip if V[X] != NN. -/
def execSneImm (x : Reg) (nn : Byte) (s : State) : Result := .next (s.skipIf (s.getV x != nn))

/-- R92: skip if V[X] = V[Y]. -/
def execSeReg (x y : Reg) (s : State) : Result := .next (s.skipIf (s.getV x == s.getV y))

/-- R93: skip if V[X] != V[Y]. -/
def execSneReg (x y : Reg) (s : State) : Result := .next (s.skipIf (s.getV x != s.getV y))

/-- R94: skip if KEY[V[X][3:0]] = 1. -/
def execSkp (x : Reg) (s : State) : Result := .next (s.skipIf (s.keyDown (s.lowNibble x).toNat))

/-- R95: skip if KEY[V[X][3:0]] = 0. -/
def execSknp (x : Reg) (s : State) : Result := .next (s.skipIf (!s.keyDown (s.lowNibble x).toNat))

end Sys2Proof.Machine
end

