-- ==== Sys2Proof/Machine/TimerKey.lean ====
section
/-! DEFINITION. Timer access and the key wait: FX07, FX0A, FX15, FX18, and the observation while waiting
(`45_timer_key.md`). -/

namespace Sys2Proof.Machine

/-- R140: `V[X] <- DT`. -/
def execLdVxDt (x : Reg) (s : State) : Result := .next (s.setV x s.dt).advance

/-- R141: `WAITREG <- X`, `MODE <- WaitingForKey`, PC stays at the FX0A; the key latch is not sampled. -/
def execLdVxK (x : Reg) (s : State) : Result := .next { s with waitReg := x, mode := .waitingForKey }

/-- R142: `DT <- V[X]`. -/
def execLdDtVx (x : Reg) (s : State) : Result := .next { s with dt := s.getV x }.advance

/-- R143: `ST <- V[X]`. -/
def execLdStVx (x : Reg) (s : State) : Result := .next { s with st := s.getV x }.advance

/-- R144: the step event while waiting: with no key pressed nothing changes; else the lowest pressed key goes to
V[WAITREG], PC moves past the FX0A and the engine runs again. -/
def observeKeys (s : State) : State :=
  match lowestKey s.key with
  | none => s
  | some k => { s.setV s.waitReg (BitVec.ofNat 8 k) with mode := .running }.advance

end Sys2Proof.Machine
end

