-- ==== Sys2Proof/Machine/Events.lean ====
section
/-! DEFINITION. The events of the agents other than the core: tick, key change, reset and load (`10_state.md` R26). -/

namespace Sys2Proof.Machine

/-- A timer after one tick: one less, floor at 0 (`60_exceptions.md` R159). -/
def timerTick (t : Byte) : Byte := if t = 0 then 0 else t - 1

/-- R159: the tick event. While `FAULTED` = 1 it changes nothing (R153). -/
def tickEvent (s : State) : State := if s.fault.faulted then s else { s with dt := timerTick s.dt, st := timerTick s.st }

/-- `KEY` takes the new value of `key_in`, in every mode and also after a fault (`10_state.md` R19, R26,
`60_exceptions.md` R153). -/
def keyEvent (key : BitVec 16) (s : State) : State := { s with key := key }

/-- The reset event, enabled in every state: every item takes its reset value (`70_reset_and_hazards.md` R180). The
randomness source and the agents' coming moves are outside the machine and go on as they were (log 7). -/
def resetEvent (s : State) : State := { State.reset with rndIndex := s.rndIndex, schedule := s.schedule }

/-- The load event: `RomTooLarge` with nothing copied when the image is longer than 3584 bytes, else image byte k to
address 0x200 + k and nothing else (`70_reset_and_hazards.md` R182, `60_exceptions.md` R167). -/
def loadEvent (rom : List Byte) (s : State) : Result :=
  if rom.length ≤ Config.romMax then .next { s with mem := Memory.writeBytes s.mem Config.romBase rom }
  else raise .romTooLarge 0 (BitVec.ofNat Config.pcBits Config.romBase) s

end Sys2Proof.Machine
end

