-- ==== Sys2Proof/Machine/Cycle.lean ====
section
/-! DEFINITION. The core's step event: fetch, decode, execute, or one keypad observation (`30_encoding.md` R64), and the
delivery of an agent's move. Step.lean only calls what stands here. -/

namespace Sys2Proof.Machine

/-- The opcode at PC, big-endian, or none when PC + 1 >= 4096 ("The fetch check is made for both bytes before either is
used", R64). -/
def State.fetch (s : State) : Option Word :=
  if s.pc.toNat + 1 < Config.memSize then
    some (wordOfBytes (Memory.read s.mem s.pc.toNat) (Memory.read s.mem (s.pc.toNat + 1)))
  else none

/-- R64 in Running: fetch bounds first, then decode, then the instruction with its own check (`60_exceptions.md` R154). -/
def runInstruction (s : State) : Result :=
  match s.fetch with
  | none => raise .outOfBounds 0 s.pc s
  | some w =>
    match decodeWord w with
    | none => raise .invalidOpcode w s.pc s
    | some i => exec i s

/-- The step event (R64): nothing while `FAULTED` = 1, one observation while waiting, else one instruction. -/
def stepEvent (s : State) : Result :=
  if s.fault.faulted then .next s
  else
    match s.mode with
    | .waitingForKey => .next (observeKeys s)
    | .running => runInstruction s

/-- One move of one agent, one indivisible transition (`10_state.md` R26, R27). -/
def deliver (e : AgentEvent) (s : State) : Result :=
  match e with
  | .step => stepEvent s
  | .tick => .next (tickEvent s)
  | .keyIn key => .next (keyEvent key s)
  | .reset => .next (resetEvent s)
  | .resetLoad rom => loadEvent rom (resetEvent s)

/-- The next move: the oldest of the schedule, or, with none left, the core's step (log 2). -/
def nextMove (s : State) : Result :=
  match s.schedule with
  | [] => stepEvent s
  | e :: rest => deliver e { s with schedule := rest }

/-- A whole list of moves, oldest first. -/
def deliverAll : List AgentEvent → State → Result
  | [], s => .next s
  | e :: es, s =>
    match deliver e s with
    | .next s' => deliverAll es s'
    | .fault r => .fault r
    | .refused r => .refused r

/-- Where `placeWord` stores: PC where both bytes of an instruction there lie in memory, else the entry point. -/
def State.placePc (s : State) : Word :=
  if s.pc.toNat + 1 < Config.memSize then s.pc else BitVec.ofNat Config.pcBits Config.romBase

/-- A word stored where the next fetch is, with all that a fetch needs: the core moves next, is not faulted, runs, and
PC is an address that can be fetched (log 9). -/
def placeWord (s : State) (w : Word) : State :=
  { s with
    pc := s.placePc
    mem := Memory.writeBytes s.mem s.placePc.toNat (bytesOfWord w)
    mode := .running
    fault := .clear
    schedule := [] }

end Sys2Proof.Machine
end

