-- ==== Sys2Proof/Machine/Outputs.lean ====
section
/-! DEFINITION. The output ports (`10_state.md` R25): functions of the state, "Reading an output has no side effect". -/

namespace Sys2Proof.Machine

/-- The three values of the `status` output. -/
inductive Status where
  | running
  | waiting
  | fault
  deriving DecidableEq, Repr

/-- `status`: "Fault if FAULTED, else Waiting if MODE = WaitingForKey, else Running". -/
def State.status (s : State) : Status :=
  if s.fault.faulted then .fault else if s.mode = .waitingForKey then .waiting else .running

/-- The code of a cause, 3 bits (`60_exceptions.md` R150). -/
def FaultCause.code : FaultCause → BitVec 3
  | .none => 0
  | .outOfBounds => 1
  | .stackOverflow => 2
  | .stackUnderflow => 3
  | .invalidOpcode => 4
  | .romTooLarge => 5

/-- `fault_info`: `FCAUSE`, `FOPCODE`, `FPC`. -/
def State.faultInfo (s : State) : BitVec 3 × Word × Word := (s.fault.cause.code, s.fault.opcode, s.fault.pc)

/-- `display`: the pixel grid. -/
def State.display (s : State) : Display := s.disp

/-- `sound_on`: 1 exactly when ST != 0 (`60_exceptions.md` R160). -/
def State.soundOn (s : State) : Bool := s.st != 0

/-- The instruction writes the display: 00E0 or DXYN (`60_exceptions.md` R162). -/
def drawsDisplay : Instr → Bool
  | .cls | .drw _ _ _ => true
  | .sys _ | .ret | .jp _ | .call _ | .seImm _ _ | .sneImm _ _ | .seReg _ _ | .ldImm _ _ | .addImm _ _
  | .ldReg _ _ | .orReg _ _ | .andReg _ _ | .xorReg _ _ | .addReg _ _ | .subReg _ _ | .shr _ _ | .subnReg _ _
  | .shl _ _ | .sneReg _ _ | .ldI _ | .jpV0 _ | .rnd _ _ | .skp _ | .sknp _ | .ldVxDt _ | .ldVxK _
  | .ldDtVx _ | .ldStVx _ | .addI _ | .ldF _ | .ldB _ | .ldMemVx _ | .ldVxMem _ => false

/-- `display_dirty` of the step event taken from `s`: 1 exactly when that step completes a 00E0 or a DXYN (R162, log 12). -/
def State.displayDirty (s : State) : Bool :=
  !s.fault.faulted && s.mode == .running &&
    match s.fetch.bind decodeWord with
    | none => false
    | some i =>
      drawsDisplay i &&
        match exec i s with
        | .next s' => !s'.fault.faulted
        | _ => false

end Sys2Proof.Machine
end

