-- ==== Sys2Proof/Safety.lean ====
section
/-! DEFINITION. What counts as a safe run, and the words the statements about the machine are written in: frames, illegal
words, the pixels a sprite covers, the invariants, the conventional end of a program. -/

namespace Sys2Proof.Machine

/-! ## Frames -/

/-- The fields of State, by name. -/
inductive Item where
  | mem | v | i | pc | stack | sp | dt | st | key | disp | mode | waitReg | fault | rndIndex | schedule
  deriving DecidableEq, Repr

/-- The item holds in `t` what it holds in `s`: memory at every address, the registers each. -/
def Item.same (it : Item) (s t : State) : Prop :=
  match it with
  | .mem => ∀ a, Memory.read t.mem a = Memory.read s.mem a
  | .v => ∀ r, t.getV r = s.getV r
  | .i => t.i = s.i
  | .pc => t.pc = s.pc
  | .stack => t.stack = s.stack
  | .sp => t.sp = s.sp
  | .dt => t.dt = s.dt
  | .st => t.st = s.st
  | .key => t.key = s.key
  | .disp => t.disp = s.disp
  | .mode => t.mode = s.mode
  | .waitReg => t.waitReg = s.waitReg
  | .fault => t.fault = s.fault
  | .rndIndex => t.rndIndex = s.rndIndex
  | .schedule => t.schedule = s.schedule

/-- Every item but the `written` ones is unchanged. -/
def Frame (written : List Item) (s t : State) : Prop := ∀ it, it ∉ written → it.same s t

/-- Every register but the listed ones is unchanged. -/
def RegsKept (written : List Reg) (s t : State) : Prop := ∀ r, r ∉ written → t.getV r = s.getV r

/-- Every byte of memory outside the `n` bytes from `a` up is unchanged. -/
def MemKept (a n : Nat) (s t : State) : Prop :=
  ∀ b, b < a ∨ a + n ≤ b → Memory.read t.mem b = Memory.read s.mem b

/-! ## When the core executes an instruction (`30_encoding.md` R64) -/

/-- No fatal condition is recorded. -/
abbrev State.noFault (s : State) : Prop := s.fault.faulted = false

/-- A step event executes an instruction: `FAULTED` = 0 and `MODE` = Running. -/
abbrev State.ready (s : State) : Prop := s.noFault ∧ s.mode = .running

/-- The machine's next move is the core's step. -/
abbrev State.coreNext (s : State) : Prop := s.schedule = []

/-- The next move executes instruction `i`: the core moves, is ready, and the bytes at PC decode to `i`. -/
abbrev State.about (s : State) (i : Instr) : Prop := s.coreNext ∧ s.ready ∧ s.fetch.bind decodeWord = some i

/-- Every state of a run over the moves `es`, the last one included, is without a fault
("every claim about a program takes FAULTED = 0 throughout as a premise or proves it", `60_exceptions.md` R153). -/
def SafeRun : List AgentEvent → State → Prop
  | [], s => s.noFault
  | e :: es, s => s.noFault ∧ ∃ t, deliver e s = .next t ∧ SafeRun es t

/-- A move that is not a reset. -/
def AgentEvent.keepsSession : AgentEvent → Bool
  | .step | .tick | .keyIn _ => true
  | .reset | .resetLoad _ => false

/-- The conventional end of a program: running, not faulted, and the instruction at PC jumps to itself
(`70_reset_and_hazards.md` R189, log 10). -/
def State.atSelfJump (s : State) : Prop :=
  s.ready ∧ ∃ nnn : BitVec 12, s.fetch = some (fmtNNN 0x1 nnn) ∧ zext16 nnn = s.pc

/-- Executing the instructions of a list one after the other, each at the state the one before leaves. -/
def execSeq : List Instr → State → Result
  | [], s => .next s
  | i :: is, s =>
    match exec i s with
    | .next t => execSeq is t
    | .fault r => .fault r
    | .refused r => .refused r

/-! ## What each instruction may write -/

/-- The general registers an instruction may write when it completes: its X, VF as flag for the six of `10_state.md` R12,
V0 to VX for FX65. -/
def destRegs : Instr → List Reg
  | .ldImm x _ | .addImm x _ | .ldReg x _ | .orReg x _ | .andReg x _ | .xorReg x _ | .rnd x _ | .ldVxDt x => [x]
  | .addReg x _ | .subReg x _ | .shr x _ | .subnReg x _ | .shl x _ => [x, vf]
  | .drw _ _ _ => [vf]
  | .ldVxMem x => (List.finRange 16).filter (· ≤ x)
  | .sys _ | .cls | .ret | .jp _ | .call _ | .seImm _ _ | .sneImm _ _ | .seReg _ _ | .sneReg _ _ | .ldI _ | .jpV0 _
  | .skp _ | .sknp _ | .ldVxK _ | .ldDtVx _ | .ldStVx _ | .addI _ | .ldF _ | .ldB _ | .ldMemVx _ => []

/-- The items an instruction may write: PC when it completes, the fault record when it does not, and what its rule names
(`10_state.md` R11 to R23, `20_memory.md` R40, R47). -/
def itemsWritten : Instr → List Item
  | .sys _ => [.fault]
  | .cls => [.disp, .pc]
  | .ret => [.sp, .pc, .fault]
  | .call _ => [.stack, .sp, .pc, .fault]
  | .jp _ | .jpV0 _ | .seImm _ _ | .sneImm _ _ | .seReg _ _ | .sneReg _ _ | .skp _ | .sknp _ => [.pc]
  | .ldImm _ _ | .addImm _ _ | .ldReg _ _ | .orReg _ _ | .andReg _ _ | .xorReg _ _ | .addReg _ _ | .subReg _ _
  | .shr _ _ | .subnReg _ _ | .shl _ _ | .ldVxDt _ => [.v, .pc]
  | .rnd _ _ => [.v, .rndIndex, .pc]
  | .ldI _ | .addI _ | .ldF _ => [.i, .pc]
  | .drw _ _ _ => [.disp, .v, .pc, .fault]
  | .ldVxK _ => [.mode, .waitReg]
  | .ldDtVx _ => [.dt, .pc]
  | .ldStVx _ => [.st, .pc]
  | .ldB _ | .ldMemVx _ => [.mem, .pc, .fault]
  | .ldVxMem _ => [.v, .pc, .fault]

/-! ## Illegal words -/

/-- The table of `30_encoding.md` R67, row by row. -/
def IllegalWord (w : Word) : Prop :=
  (fieldOp w = 0x0 ∧ w ≠ 0x00E0 ∧ w ≠ 0x00EE) ∨
  (fieldOp w = 0x5 ∧ fieldN w ≠ 0x0) ∨
  (fieldOp w = 0x8 ∧ fieldN w ∈ [0x8#4, 0x9#4, 0xA#4, 0xB#4, 0xC#4, 0xD#4, 0xF#4]) ∨
  (fieldOp w = 0x9 ∧ fieldN w ≠ 0x0) ∨
  (fieldOp w = 0xE ∧ fieldNN w ∉ [0x9E#8, 0xA1#8]) ∨
  (fieldOp w = 0xF ∧ fieldNN w ∉ [0x07#8, 0x0A#8, 0x15#8, 0x18#8, 0x1E#8, 0x29#8, 0x33#8, 0x55#8, 0x65#8])

/-! ## Sprites -/

/-- A 1 bit of the sprite of `N` rows at `MEM[I ..]`, drawn from column V[X], row V[Y], lands on pixel (px, py)
(`44_display.md` R132). -/
def State.spriteCovers (s : State) (x y : Reg) (n : BitVec 4) (px : Fin Config.dispW) (py : Fin Config.dispH) : Prop :=
  ∃ c r : Nat, c < 8 ∧ r < n.toNat ∧ px.val = ((s.getV x).toNat + c) % 64 ∧ py.val = ((s.getV y).toNat + r) % 32 ∧
    (Memory.read s.mem (s.i.toNat + r)).getLsbD (7 - c) = true

/-- `DISP[px,py]` = 1. -/
abbrev State.pixelSet (s : State) (px : Fin Config.dispW) (py : Fin Config.dispH) : Prop :=
  Display.pixel s.disp px py = true

/-! ## Invariants -/

/-- Memory is in its canonical form. -/
abbrev State.memWf (s : State) : Prop := Memory.wf s.mem = true

/-- While the engine waits, WAITREG is "bits [11:8] of the opcode stored at PC", an FX0A (`10_state.md` R22). -/
def State.waitMatchesMemory (s : State) : Prop :=
  s.mode = .waitingForKey → s.fetch = some (fmtXNN 0xF s.waitReg 0x0A)

/-- PC is at most the largest sum of BNNN, 0x0FFF + 0xFF, and every return address is at most 4096 (`10_state.md` R16,
`40_flow.md` R83). -/
def State.pcBounded (s : State) : Prop :=
  s.pc.toNat ≤ 0x10FE ∧ ∀ k : Fin Config.stackDepth, (s.stack[k.val]).toNat ≤ 4096

/-- The fault record tells the truth: it names a condition of the table of `60_exceptions.md` R150 that holds in the
state, with the opcode and the address the table gives, and it is all 0 while there is no fault. -/
def State.faultExplained (s : State) : Prop :=
  match s.fault.cause with
  | .none => s.fault = FaultRecord.clear
  | .outOfBounds => s.fault.faulted = true ∧ s.fault.pc = s.pc ∧
      ((s.fault.opcode = 0 ∧ 4096 ≤ s.pc.toNat + 1) ∨
       (s.fetch = some s.fault.opcode ∧
        ((∃ x y n, s.fault.opcode = fmtXYN 0xD x y n ∧ 0 < n.toNat ∧ 4096 ≤ s.i.toNat + n.toNat - 1) ∨
         (∃ x, s.fault.opcode = fmtXNN 0xF x 0x33 ∧ 4096 ≤ s.i.toNat + 2) ∨
         (∃ x, (s.fault.opcode = fmtXNN 0xF x 0x55 ∨ s.fault.opcode = fmtXNN 0xF x 0x65) ∧
            4096 ≤ s.i.toNat + x.val))))
  | .stackOverflow => s.fault.faulted = true ∧ s.fault.pc = s.pc ∧ s.fetch = some s.fault.opcode ∧
      (∃ nnn, s.fault.opcode = fmtNNN 0x2 nnn) ∧ s.sp.val = 12
  | .stackUnderflow => s.fault.faulted = true ∧ s.fault.pc = s.pc ∧ s.fetch = some s.fault.opcode ∧
      s.fault.opcode = 0x00EE ∧ s.sp.val = 0
  | .invalidOpcode => s.fault.faulted = true ∧ s.fault.pc = s.pc ∧ s.fetch = some s.fault.opcode ∧
      IllegalWord s.fault.opcode
  | .romTooLarge => s.fault.faulted = true ∧ s.fault.pc = s.pc ∧ s.fault.opcode = 0 ∧ s.pc = 0x200

end Sys2Proof.Machine
end

