-- ==== Sys2Proof/Certificates/Slice0/Obligations.lean ====
section
/-! DEFINITION. The statements about the machine, for the provers. A docstring names the rule of spec/ a statement
formalises, or the mark that makes it the spec's or the model's own choice. In all of them `exec i s` is the effect of the
instruction alone and `step s` the machine's next move; a statement about every state holds in states no run reaches, the
invariants it needs are premises and are stated themselves. -/

open Sys2Proof Sys2Proof.Machine

/-! ## Encoding -/

/-- Words written out from the patterns of `30_encoding.md` R66 decode to their instructions; 0x6005 and 0x8014 are the
document's own examples (R61, derived by the spec from the patterns). -/
def Obligations.WordsOfTheMapDecode : Prop :=
  decodeWord 0x6005 = some (.ldImm 0 0x05) ∧ decodeWord 0x8014 = some (.addReg 0 1) ∧
  decodeWord 0x00E0 = some .cls ∧ decodeWord 0x00EE = some .ret ∧ decodeWord 0x0123 = some (.sys 0x123) ∧
  decodeWord 0x220A = some (.call 0x20A) ∧ decodeWord 0x5AB0 = some (.seReg 0xA 0xB) ∧ decodeWord 0x5AB1 = none ∧
  decodeWord 0xD125 = some (.drw 1 2 5) ∧ decodeWord 0xE59E = some (.skp 5) ∧ decodeWord 0xF70A = some (.ldVxK 7) ∧
  decodeWord 0xFE33 = some (.ldB 0xE) ∧ decodeWord 0x8128 = none ∧ decodeWord 0xF1FF = none

/-- Decoding the encoding of a well-formed instruction gives it back, every operand at every value. -/
def Obligations.DecodeOfEncode : Prop := ∀ i : Instr, i.wf = true → decodeWord (encode i) = some i

/-- Every word that decodes is the encoding of what it decodes to, and that is well-formed: no bit is dropped, the ignored
Y field of 8XY6 and 8XYE included. -/
def Obligations.EncodeOfDecode : Prop :=
  ∀ (w : Word) (i : Instr), decodeWord w = some i → encode i = w ∧ i.wf = true

/-- R65: decode agrees with the mask and match columns of the opcode map, and the map is unambiguous: an instruction is
decoded exactly from the words its row selects, no word is selected by two rows, and a word decodes to none exactly when
no row selects it. -/
def Obligations.DecodeFollowsTheOpcodeMap : Prop :=
  ∀ w : Word,
    (∀ i, decodeWord w = some i → (opcodeRow i).selects w = true) ∧
    (∀ i j : Instr, (opcodeRow i).selects w = true → (opcodeRow j).selects w = true → opcodeRow i = opcodeRow j) ∧
    (decodeWord w = none ↔ ∀ i : Instr, (opcodeRow i).selects w = false)

/-- The illegal words of the table of `30_encoding.md` section 4 are exactly those that decode to no instruction or to
SYS (that SYS is among them is the spec's decision D11). -/
def Obligations.IllegalWordsAreThoseWithoutMeaning : Prop :=
  ∀ w : Word, IllegalWord w ↔ decodeWord w = none ∨ ∃ nnn, decodeWord w = some (.sys nnn)

/-! ## The step -/

/-- A step runs the instruction that the two bytes at PC decode to, the byte at the lower address supplying opcode
bits [15:8] and the next one bits [7:0]. The byte order is that of `20_memory.md` section 3, the premises
on the mode, the fault record and PC those of the step procedure of `30_encoding.md` section 2; which move is next, by the
model's list of moves, is the model's choice (log 2). -/
def Obligations.StepRunsTheDecodedInstruction : Prop :=
  ∀ (s : State) (i : Instr), s.ready → s.pc.toNat + 1 < 4096 →
    decodeWord (BitVec.ofNat 16
      ((Memory.read s.mem s.pc.toNat).toNat * 256 + (Memory.read s.mem (s.pc.toNat + 1)).toNat)) = some i →
    (s.coreNext → step s = exec i s) ∧
    (∀ rest, s.schedule = .step :: rest → step s = exec i { s with schedule := rest })

/-- A fetch with PC + 1 at 4096 or beyond takes OutOfBounds with opcode 0, nothing else changed (the step procedure of
`30_encoding.md`; decisions D4, D9). -/
def Obligations.FetchBeyondMemoryFaults : Prop :=
  ∀ s : State, s.coreNext → s.ready → 4096 ≤ s.pc.toNat + 1 →
    ∃ t, step s = .next t ∧ t.fault = ⟨true, .outOfBounds, 0, s.pc⟩ ∧ Frame [.fault] s t

/-- An illegal word at PC takes InvalidOpcode with the word and its address, nothing else changed, and a word that is not
illegal never does (`30_encoding.md` section 4; decisions D4, D11). -/
def Obligations.IllegalWordFaults : Prop :=
  ∀ (s : State) (w : Word), s.coreNext → s.ready → s.fetch = some w →
    (IllegalWord w →
      ∃ t, step s = .next t ∧ t.fault = ⟨true, .invalidOpcode, w, s.pc⟩ ∧ Frame [.fault] s t) ∧
    (¬ IllegalWord w → s.fault = .clear → ∃ t, step s = .next t ∧ t.fault.cause ≠ .invalidOpcode)

/-- Every state has a next state: no state and no word stops the machine ("typed result ... rather than causing undefined
behavior", `60_exceptions.md`; that a fault is a next state is the model's reading, log 1). -/
def Obligations.EveryStepHasANextState : Prop := ∀ s : State, ∃ t, step s = .next t

/-- A run of the machine over the moves its schedule lists is those moves delivered in that order, so that every
interleaving of the four agents is a run (`10_state.md` section 8, D26; the schedule is the model's own field, log 2). -/
def Obligations.ScheduledMovesHappenInOrder : Prop :=
  ∀ (es : List AgentEvent) (s t : State), s.schedule = [] →
    (deliverAll es s = .next t ↔ Sys2Proof.core.run es.length { s with schedule := es } = .next t)

/-! ## Reset and load -/

/-- The values after reset: every item of the table of `10_state.md` section 9 (decisions D2, D3), with the outputs that
follow. The last two fields are the model's own (log 2, log 3) and are not stated. -/
def Obligations.ResetValues : Prop :=
  (∀ a, Memory.read State.reset.mem a = if h : a < 80 then fontTable[a]'h else 0) ∧
  (∀ r, State.reset.getV r = 0) ∧ State.reset.i = 0 ∧ State.reset.pc = 0x200 ∧
  (∀ k : Fin 12, State.reset.stack[k.val] = 0) ∧ State.reset.sp = 0 ∧ State.reset.dt = 0 ∧ State.reset.st = 0 ∧
  State.reset.key = 0 ∧ (∀ x y, ¬ State.reset.pixelSet x y) ∧ State.reset.mode = .running ∧
  State.reset.waitReg = 0 ∧ State.reset.fault = ⟨false, .none, 0, 0⟩ ∧
  State.reset.status = .running ∧ State.reset.soundOn = false

/-- The reset event, from every state, the faulted ones included, gives every item of the spec its reset value
(`70_reset_and_hazards.md` section 1, D2, D3), and a reset and load puts the image at 0x200 and changes nothing else, or,
for an image over 3584 bytes, takes RomTooLarge with nothing copied (D30). -/
def Obligations.ResetAndLoadFromEveryState : Prop :=
  ∀ s : State,
    (∃ t, deliver .reset s = .next t ∧ Frame [.rndIndex, .schedule] State.reset t) ∧
    (∀ rom : List Byte, rom.length ≤ 3584 →
      ∃ t, deliver (.resetLoad rom) s = .next t ∧ Frame [.mem, .rndIndex, .schedule] State.reset t ∧
        (∀ k (h : k < rom.length), Memory.read t.mem (0x200 + k) = rom[k]'h) ∧
        MemKept 0x200 rom.length State.reset t) ∧
    (∀ rom : List Byte, 3584 < rom.length →
      ∃ t, deliver (.resetLoad rom) s = .next t ∧ t.fault = ⟨true, .romTooLarge, 0, 0x200⟩ ∧
        Frame [.fault, .rndIndex, .schedule] State.reset t)

/-! ## Invariants -/

/-- The three invariants and the bound on PC hold at reset. -/
def Obligations.InvariantsHoldAtReset : Prop :=
  State.reset.memWf ∧ State.reset.waitMatchesMemory ∧ State.reset.faultExplained ∧ State.reset.pcBounded

/-- Every move of every agent keeps memory in its canonical form, so that equal memories are equal data (log 6). -/
def Obligations.MovesKeepMemoryCanonical : Prop :=
  ∀ s t : State, s.memWf → step s = .next t → t.memWf

/-- Every move keeps this: while the engine waits, PC is at an FX0A whose X field is WAITREG (`10_state.md` section 5,
D19). -/
def Obligations.MovesKeepTheWaitRegisterTrue : Prop :=
  ∀ s t : State, s.waitMatchesMemory → step s = .next t → t.waitMatchesMemory

/-- Every move keeps this: the fault record names a condition of the table of `60_exceptions.md` section 1 that holds in
the state, with the opcode and the address of the table, and is clear while there is no fault (D4, D5, D6). -/
def Obligations.MovesKeepTheFaultRecordTrue : Prop :=
  ∀ s t : State, s.faultExplained → step s = .next t → t.faultExplained

/-- Every move keeps PC at most 0x10FE and every return address at most 4096, so that no PC value ever wraps
(`10_state.md` section 3). -/
def Obligations.MovesKeepPcBounded : Prop :=
  ∀ s t : State, s.waitMatchesMemory → s.pcBounded → step s = .next t → t.pcBounded

/-! ## Faults -/

/-- A core step that ends with a fault recorded committed nothing else, and the record holds PC, the address of the
instruction (`60_exceptions.md` section 1, D4, D6). -/
def Obligations.FaultsArePrecise : Prop :=
  ∀ s t : State, s.coreNext → s.noFault → step s = .next t → t.fault.faulted = true →
    t = { s with fault := t.fault } ∧ t.fault.pc = s.pc ∧ t.fault.cause ≠ .none ∧ t.fault.cause ≠ .romTooLarge ∧
    t.status = .fault

/-- Once a fault is recorded, any moves but a reset change nothing except the key latch, and `status` stays Fault
(`60_exceptions.md` section 1, D33). -/
def Obligations.AFaultedMachineStandsStill : Prop :=
  ∀ (es : List AgentEvent) (s t : State), (∀ e ∈ es, e.keepsSession = true) → s.fault.faulted = true →
    deliverAll es s = .next t → t = { s with key := t.key } ∧ t.status = .fault

/-! ## Control transfer -/

/-- SYS NNN always takes InvalidOpcode with its word and address, nothing else changed (`40_flow.md`; general knowledge,
D11). This entry is the instruction's own effect. -/
def Obligations.SysTakesInvalidOpcode : Prop :=
  ∀ (nnn : BitVec 12) (s : State),
    ∃ t, exec (.sys nnn) s = .next t ∧ t.fault = ⟨true, .invalidOpcode, fmtNNN 0x0 nnn, s.pc⟩ ∧ Frame [.fault] s t

/-- JP NNN loads NNN, JP V0, NNN loads NNN + V0 unreduced; nothing else changes (`40_flow.md`; general knowledge, D25). -/
def Obligations.JumpsLoadPc : Prop :=
  ∀ (nnn : BitVec 12) (s : State),
    (∃ t, exec (.jp nnn) s = .next t ∧ t.pc.toNat = nnn.toNat ∧ Frame [.pc] s t) ∧
    (∃ t, exec (.jpV0 nnn) s = .next t ∧ t.pc.toNat = nnn.toNat + (s.getV 0).toNat ∧ Frame [.pc] s t)

/-- CALL below depth 12 pushes A + 2 into entry SP, raises SP and loads NNN, every other entry and item unchanged; at
depth 12 it takes StackOverflow with nothing else changed (`40_flow.md`; general knowledge, D24). -/
def Obligations.CallPushesTheReturnAddress : Prop :=
  ∀ (nnn : BitVec 12) (s : State),
    (s.sp.val < 12 → ∃ t, exec (.call nnn) s = .next t ∧
      (∀ k : Fin 12, t.stack[k.val] = if k.val = s.sp.val then s.pc + 2 else s.stack[k.val]) ∧
      t.sp.val = s.sp.val + 1 ∧ t.pc.toNat = nnn.toNat ∧ Frame [.stack, .sp, .pc] s t) ∧
    (s.sp.val = 12 → ∃ t, exec (.call nnn) s = .next t ∧
      t.fault = ⟨true, .stackOverflow, fmtNNN 0x2 nnn, s.pc⟩ ∧ Frame [.fault] s t)

/-- RET above depth 0 lowers SP and loads the popped entry as it stands, which stays in place; at depth 0 it takes
StackUnderflow with nothing else changed (`40_flow.md`; general knowledge, D24). -/
def Obligations.ReturnPopsTheReturnAddress : Prop :=
  ∀ s : State,
    (∀ k : Fin 12, s.sp.val = k.val + 1 → ∃ t, exec .ret s = .next t ∧ t.pc = s.stack[k.val] ∧ t.sp.val = k.val ∧
      Frame [.sp, .pc] s t) ∧
    (s.sp.val = 0 → ∃ t, exec .ret s = .next t ∧ t.fault = ⟨true, .stackUnderflow, 0x00EE, s.pc⟩ ∧ Frame [.fault] s t)

/-- A CALL and the RET after it come back to the instruction after the CALL, with the depth as before and every item but
PC and the one stack entry unchanged (the document's round trip, `95_test_vectors.md` S4). -/
def Obligations.CallThenReturnComesBack : Prop :=
  ∀ (nnn : BitVec 12) (s : State), s.sp.val < 12 →
    ∃ t u, exec (.call nnn) s = .next t ∧ exec .ret t = .next u ∧ u.pc = s.pc + 2 ∧ u.sp = s.sp ∧
      Frame [.stack, .pc] s u

/-- From an empty stack, up to twelve nested calls succeed and fill one entry each; a thirteenth takes StackOverflow at
depth 12 (the document's capacity test, `95_test_vectors.md` S4). -/
def Obligations.TwelveCallsFillTheStack : Prop :=
  ∀ (targets : List (BitVec 12)) (s : State), s.sp.val = 0 → s.fault = .clear →
    (targets.length ≤ 12 → ∃ t, execSeq (targets.map .call) s = .next t ∧ t.sp.val = targets.length ∧ t.noFault) ∧
    (targets.length = 13 → ∃ t, execSeq (targets.map .call) s = .next t ∧ t.sp.val = 12 ∧
      t.fault.faulted = true ∧ t.fault.cause = .stackOverflow)

/-! ## Skips -/

/-- 3XNN skips when V[X] = NN, 4XNN when it differs: PC becomes A + 4 or A + 2 and nothing else changes (`41_skip.md`; the
conditions are general knowledge). -/
def Obligations.ImmediateSkips : Prop :=
  ∀ (x : Reg) (nn : Byte) (s : State),
    (∃ t, exec (.seImm x nn) s = .next t ∧ Frame [.pc] s t ∧
      (s.getV x = nn → t.pc = s.pc + 4) ∧ (s.getV x ≠ nn → t.pc = s.pc + 2)) ∧
    (∃ t, exec (.sneImm x nn) s = .next t ∧ Frame [.pc] s t ∧
      (s.getV x ≠ nn → t.pc = s.pc + 4) ∧ (s.getV x = nn → t.pc = s.pc + 2))

/-- 5XY0 skips when V[X] = V[Y], 9XY0 when they differ (`41_skip.md`; the conditions are general knowledge). -/
def Obligations.RegisterSkips : Prop :=
  ∀ (x y : Reg) (s : State),
    (∃ t, exec (.seReg x y) s = .next t ∧ Frame [.pc] s t ∧
      (s.getV x = s.getV y → t.pc = s.pc + 4) ∧ (s.getV x ≠ s.getV y → t.pc = s.pc + 2)) ∧
    (∃ t, exec (.sneReg x y) s = .next t ∧ Frame [.pc] s t ∧
      (s.getV x ≠ s.getV y → t.pc = s.pc + 4) ∧ (s.getV x = s.getV y → t.pc = s.pc + 2))

/-- EX9E skips when the key whose number is the low nibble of V[X] is pressed, EXA1 when it is not; the latch is not
changed (`41_skip.md`; the conditions are general knowledge, the nibble is D18). -/
def Obligations.KeySkips : Prop :=
  ∀ (x : Reg) (s : State),
    (∃ t, exec (.skp x) s = .next t ∧ Frame [.pc] s t ∧
      (s.key.getLsbD ((s.getV x).toNat % 16) = true → t.pc = s.pc + 4) ∧
      (s.key.getLsbD ((s.getV x).toNat % 16) = false → t.pc = s.pc + 2)) ∧
    (∃ t, exec (.sknp x) s = .next t ∧ Frame [.pc] s t ∧
      (s.key.getLsbD ((s.getV x).toNat % 16) = false → t.pc = s.pc + 4) ∧
      (s.key.getLsbD ((s.getV x).toNat % 16) = true → t.pc = s.pc + 2))

/-! ## Registers, arithmetic, logic -/

/-- R100: LD VX, NN writes NN to V[X], VF included when X = 15, and PC <- A + 2; nothing else changes. -/
def Obligations.LoadImmediate : Prop :=
  ∀ (x : Reg) (nn : Byte) (s : State), decodeWord (fmtXNN 0x6 x nn) = some (.ldImm x nn) ∧
    ∃ t, exec (.ldImm x nn) s = .next t ∧ t.getV x = nn ∧ t.pc = s.pc + 2 ∧ RegsKept [x] s t ∧ Frame [.v, .pc] s t

/-- 7XNN adds modulo 256 without touching VF as a flag, 8XY0 copies (`42_alu.md`; general knowledge, D16). -/
def Obligations.AddImmediateAndCopy : Prop :=
  ∀ (x y : Reg) (nn : Byte) (s : State),
    (∃ t, exec (.addImm x nn) s = .next t ∧ (t.getV x).toNat = ((s.getV x).toNat + nn.toNat) % 256 ∧
      t.pc = s.pc + 2 ∧ RegsKept [x] s t ∧ Frame [.v, .pc] s t) ∧
    (∃ t, exec (.ldReg x y) s = .next t ∧ t.getV x = s.getV y ∧
      t.pc = s.pc + 2 ∧ RegsKept [x] s t ∧ Frame [.v, .pc] s t)

/-- OR, AND and XOR work bit by bit and leave VF alone unless X = 15 (`42_alu.md`; general knowledge, D14). -/
def Obligations.LogicIsBitwise : Prop :=
  ∀ (x y : Reg) (s : State),
    (∃ t, exec (.orReg x y) s = .next t ∧
      (∀ k < 8, (t.getV x).getLsbD k = ((s.getV x).getLsbD k || (s.getV y).getLsbD k)) ∧
      t.pc = s.pc + 2 ∧ RegsKept [x] s t ∧ Frame [.v, .pc] s t) ∧
    (∃ t, exec (.andReg x y) s = .next t ∧
      (∀ k < 8, (t.getV x).getLsbD k = ((s.getV x).getLsbD k && (s.getV y).getLsbD k)) ∧
      t.pc = s.pc + 2 ∧ RegsKept [x] s t ∧ Frame [.v, .pc] s t) ∧
    (∃ t, exec (.xorReg x y) s = .next t ∧
      (∀ k < 8, (t.getV x).getLsbD k = ((s.getV x).getLsbD k ^^ (s.getV y).getLsbD k)) ∧
      t.pc = s.pc + 2 ∧ RegsKept [x] s t ∧ Frame [.v, .pc] s t)

/-- R106: 8XY4 writes the sum modulo 256 to V[X], then the carry to VF, both from the operands before the step, so that
the carry wins when X = 15. -/
def Obligations.AddSetsCarry : Prop :=
  ∀ (x y : Reg) (s : State), decodeWord (fmtXYN 0x8 x y 0x4) = some (.addReg x y) ∧
    ∃ t, exec (.addReg x y) s = .next t ∧
      (t.getV vf).toNat = (if (s.getV x).toNat + (s.getV y).toNat ≥ 256 then 1 else 0) ∧
      (x ≠ vf → (t.getV x).toNat = ((s.getV x).toNat + (s.getV y).toNat) % 256) ∧
      t.pc = s.pc + 2 ∧ RegsKept [x, vf] s t ∧ Frame [.v, .pc] s t

/-- 8XY5 computes VX - VY and 8XY7 VY - VX modulo 256, then VF becomes 1 exactly when there was no borrow; the flag wins
when X = 15 (`42_alu.md`; the directions are general knowledge). -/
def Obligations.SubtractionsSetNotBorrow : Prop :=
  ∀ (x y : Reg) (s : State),
    (∃ t, exec (.subReg x y) s = .next t ∧
      (t.getV vf).toNat = (if (s.getV x).toNat ≥ (s.getV y).toNat then 1 else 0) ∧
      (x ≠ vf → (t.getV x).toNat = ((s.getV x).toNat + 256 - (s.getV y).toNat) % 256) ∧
      t.pc = s.pc + 2 ∧ RegsKept [x, vf] s t ∧ Frame [.v, .pc] s t) ∧
    (∃ t, exec (.subnReg x y) s = .next t ∧
      (t.getV vf).toNat = (if (s.getV y).toNat ≥ (s.getV x).toNat then 1 else 0) ∧
      (x ≠ vf → (t.getV x).toNat = ((s.getV y).toNat + 256 - (s.getV x).toNat) % 256) ∧
      t.pc = s.pc + 2 ∧ RegsKept [x, vf] s t ∧ Frame [.v, .pc] s t)

/-- 8XY6 halves V[X] and 8XYE doubles it modulo 256, whatever Y is, then VF becomes the bit shifted out; the flag wins
when X = 15 (`42_alu.md`; the directions are general knowledge, the source of the shift is D12). -/
def Obligations.ShiftsSetTheBitShiftedOut : Prop :=
  ∀ (x y : Reg) (s : State),
    (∃ t, exec (.shr x y) s = .next t ∧ (t.getV vf).toNat = (s.getV x).toNat % 2 ∧
      (x ≠ vf → (t.getV x).toNat = (s.getV x).toNat / 2) ∧
      t.pc = s.pc + 2 ∧ RegsKept [x, vf] s t ∧ Frame [.v, .pc] s t) ∧
    (∃ t, exec (.shl x y) s = .next t ∧ (t.getV vf).toNat = (s.getV x).toNat / 128 ∧
      (x ≠ vf → (t.getV x).toNat = (s.getV x).toNat * 2 % 256) ∧
      t.pc = s.pc + 2 ∧ RegsKept [x, vf] s t ∧ Frame [.v, .pc] s t)

/-- CXNN writes the drawn byte masked with NN, whatever that byte is, and draws exactly one; no other instruction draws
(`42_alu.md`, D28; that byte number `rndIndex` of the source is `Config.rndByte rndIndex` is the model's, log 3). -/
def Obligations.RandomDrawsOneByte : Prop :=
  (∀ (x : Reg) (nn : Byte) (s : State), ∃ t, exec (.rnd x nn) s = .next t ∧
    (∀ k < 8, (t.getV x).getLsbD k = ((Config.rndByte s.rndIndex).getLsbD k && nn.getLsbD k)) ∧
    t.rndIndex = s.rndIndex + 1 ∧ t.pc = s.pc + 2 ∧ RegsKept [x] s t ∧ Frame [.v, .pc, .rndIndex] s t) ∧
  (∀ (i : Instr) (s t : State), (∀ x nn, i ≠ .rnd x nn) → exec i s = .next t → t.rndIndex = s.rndIndex)

/-- An instruction changes no general register but those it names as destination and, for the six of `10_state.md`
section 2, VF; FX65 changes none above VX (D14, D15, D16). -/
def Obligations.OnlyDestinationRegistersChange : Prop :=
  ∀ (i : Instr) (s t : State), exec i s = .next t → RegsKept (destRegs i) s t

/-- An instruction changes no item of the state but those its rule names: memory only FX33 and FX55, the stack only CALL
and RET, the display only CLS and DRW, I only ANNN, FX1E and FX29, DT only FX15, ST only FX18, the mode only FX0A, the keys
none (`10_state.md` sections 2 to 5, `20_memory.md` sections 1 and 5). -/
def Obligations.InstructionsWriteOnlyTheirItems : Prop :=
  ∀ (i : Instr) (s t : State), exec i s = .next t → Frame (itemsWritten i) s t

/-! ## Index register and memory -/

/-- ANNN loads NNN, FX1E adds V[X] modulo 65536 without fault or flag, FX29 loads 5 times the low nibble of V[X]; nothing
but I and PC changes (`43_index_memory.md`; general knowledge, D8, D15, D17). -/
def Obligations.IndexRegisterWrites : Prop :=
  ∀ (nnn : BitVec 12) (x : Reg) (s : State),
    (∃ t, exec (.ldI nnn) s = .next t ∧ t.i.toNat = nnn.toNat ∧ t.pc = s.pc + 2 ∧ Frame [.i, .pc] s t) ∧
    (∃ t, exec (.addI x) s = .next t ∧ t.i.toNat = (s.i.toNat + (s.getV x).toNat) % 65536 ∧ t.pc = s.pc + 2 ∧
      Frame [.i, .pc] s t) ∧
    (∃ t, exec (.ldF x) s = .next t ∧ t.i.toNat = 5 * ((s.getV x).toNat % 16) ∧ t.pc = s.pc + 2 ∧ Frame [.i, .pc] s t)

/-- FX33 stores the hundreds, tens and ones digit of V[X] at I, I + 1, I + 2 and no other byte; with I + 2 at 4096 or
beyond it takes OutOfBounds and stores nothing (`43_index_memory.md` section 3; that nothing at all but the fault record
then changes is D4). -/
def Obligations.BcdStoresThreeDigits : Prop :=
  ∀ (x : Reg) (s : State), s.memWf → decodeWord (fmtXNN 0xF x 0x33) = some (.ldB x) ∧
    (s.i.toNat + 2 < 4096 → ∃ t, exec (.ldB x) s = .next t ∧
      (Memory.read t.mem s.i.toNat).toNat = (s.getV x).toNat / 100 ∧
      (Memory.read t.mem (s.i.toNat + 1)).toNat = (s.getV x).toNat / 10 % 10 ∧
      (Memory.read t.mem (s.i.toNat + 2)).toNat = (s.getV x).toNat % 10 ∧
      MemKept s.i.toNat 3 s t ∧ t.pc = s.pc + 2 ∧ Frame [.mem, .pc] s t) ∧
    (4096 ≤ s.i.toNat + 2 → ∃ t, exec (.ldB x) s = .next t ∧
      t.fault = ⟨true, .outOfBounds, fmtXNN 0xF x 0x33, s.pc⟩ ∧ Frame [.fault] s t)

/-- FX55 stores V0 to VX at I up and no other byte, I unchanged; with I + X at 4096 or beyond it takes OutOfBounds and
stores nothing (`43_index_memory.md`, D4, D13). -/
def Obligations.StoreRegistersToMemory : Prop :=
  ∀ (x : Reg) (s : State), s.memWf →
    (s.i.toNat + x.val < 4096 → ∃ t, exec (.ldMemVx x) s = .next t ∧
      (∀ r : Reg, r ≤ x → Memory.read t.mem (s.i.toNat + r.val) = s.getV r) ∧
      MemKept s.i.toNat (x.val + 1) s t ∧ t.pc = s.pc + 2 ∧ Frame [.mem, .pc] s t) ∧
    (4096 ≤ s.i.toNat + x.val → ∃ t, exec (.ldMemVx x) s = .next t ∧
      t.fault = ⟨true, .outOfBounds, fmtXNN 0xF x 0x55, s.pc⟩ ∧ Frame [.fault] s t)

/-- FX65 loads V0 to VX from I up, the registers above X, memory and I unchanged; with I + X at 4096 or beyond it takes
OutOfBounds and loads nothing (`43_index_memory.md`, D4, D13). -/
def Obligations.LoadRegistersFromMemory : Prop :=
  ∀ (x : Reg) (s : State),
    (s.i.toNat + x.val < 4096 → ∃ t, exec (.ldVxMem x) s = .next t ∧
      (∀ r : Reg, t.getV r = if r ≤ x then Memory.read s.mem (s.i.toNat + r.val) else s.getV r) ∧
      t.pc = s.pc + 2 ∧ Frame [.v, .pc] s t) ∧
    (4096 ≤ s.i.toNat + x.val → ∃ t, exec (.ldVxMem x) s = .next t ∧
      t.fault = ⟨true, .outOfBounds, fmtXNN 0xF x 0x65, s.pc⟩ ∧ Frame [.fault] s t)

/-- FX55 then FX65 with the same I and X gives the registers back whatever was done to them in between, the bytes being
kept (`43_index_memory.md` section 3, D13). -/
def Obligations.StoreThenLoadGivesTheRegistersBack : Prop :=
  ∀ (x : Reg) (s : State), s.memWf → s.i.toNat + x.val < 4096 →
    ∃ t, exec (.ldMemVx x) s = .next t ∧
      ∀ t' : State, t'.mem = t.mem → t'.i = t.i →
        ∃ u, exec (.ldVxMem x) t' = .next u ∧ ∀ r : Reg, r ≤ x → u.getV r = s.getV r

/-- A stored instruction runs in the very next step: an FX55 with X >= 1 that stores V0, V1 over the word after itself is
followed by the fetch of that word (`20_memory.md` section 6). -/
def Obligations.AStoreIsSeenByTheNextFetch : Prop :=
  ∀ (x : Reg) (s : State), s.memWf → s.about (.ldMemVx x) → 1 ≤ x.val → s.i = s.pc + 2 → s.i.toNat + x.val < 4096 →
    ∃ t, step s = .next t ∧ t.fetch = some (BitVec.ofNat 16 ((s.getV 0).toNat * 256 + (s.getV 1).toNat))

/-! ## Display -/

/-- R130: CLS unsets every pixel whatever was there, PC <- A + 2, VF and everything else unchanged, and the step that
runs it pulses `display_dirty`. -/
def Obligations.ClsClearsTheDisplay : Prop :=
  decodeWord 0x00E0 = some .cls ∧
  (∀ s : State, ∃ t, exec .cls s = .next t ∧ (∀ px py, ¬ t.pixelSet px py) ∧ t.pc = s.pc + 2 ∧ Frame [.disp, .pc] s t) ∧
  (∀ s : State, s.noFault → s.mode = .running → s.fetch = some 0x00E0 → s.displayDirty = true)

/-- DXYN with its sprite inside memory, or N = 0, inverts exactly the pixels a 1 bit of the sprite lands on, each wrapped
on its own, and writes VF with 1 when one of them was set and 0 otherwise; I, memory and the other registers are kept. With
a sprite byte at 4096 or beyond it takes OutOfBounds, no pixel and no register changed (`44_display.md`, D4, D21; that bit
7 is the leftmost pixel is general knowledge, D22). -/
def Obligations.DrawInvertsTheCoveredPixels : Prop :=
  ∀ (x y : Reg) (n : BitVec 4) (s : State),
    (n = 0 ∨ s.i.toNat + n.toNat - 1 < 4096 → ∃ t, exec (.drw x y n) s = .next t ∧
      (∀ px py, t.pixelSet px py ↔ ¬ (s.pixelSet px py ↔ s.spriteCovers x y n px py)) ∧
      ((∃ px py, s.spriteCovers x y n px py ∧ s.pixelSet px py) → t.getV vf = 1) ∧
      ((¬ ∃ px py, s.spriteCovers x y n px py ∧ s.pixelSet px py) → t.getV vf = 0) ∧
      t.pc = s.pc + 2 ∧ RegsKept [vf] s t ∧ Frame [.disp, .v, .pc] s t) ∧
    (n ≠ 0 → 4096 ≤ s.i.toNat + n.toNat - 1 → ∃ t, exec (.drw x y n) s = .next t ∧
      t.fault = ⟨true, .outOfBounds, fmtXYN 0xD x y n, s.pc⟩ ∧ Frame [.fault] s t)

/-- A 1 bit inverts its pixel and a 0 bit keeps it; a collision is a set pixel under a 1 bit; drawing the identical
sprite at the identical position twice restores the display, and the second draw collides exactly when the first one set
some pixel. Where the bits land is the geometry of `44_display.md` section 1, in
which that bit 7 is the leftmost pixel is general knowledge (G5, D22, log 11). The second draw may name other registers, as
long as they hold the same coordinates. -/
def Obligations.DrawingTwiceRestoresTheDisplay : Prop :=
  ∀ (x y : Reg) (n : BitVec 4) (s : State), n = 0 ∨ s.i.toNat + n.toNat - 1 < 4096 →
    ∃ t, exec (.drw x y n) s = .next t ∧
      (∀ px py, s.spriteCovers x y n px py → (t.pixelSet px py ↔ ¬ s.pixelSet px py)) ∧
      (∀ px py, ¬ s.spriteCovers x y n px py → (t.pixelSet px py ↔ s.pixelSet px py)) ∧
      (t.getV vf = 1 ↔ ∃ px py, s.pixelSet px py ∧ ¬ t.pixelSet px py) ∧
      ∀ x' y' : Reg, t.getV x' = s.getV x → t.getV y' = s.getV y →
        ∃ u, exec (.drw x' y' n) t = .next u ∧ u.disp = s.disp ∧
          (u.getV vf = 1 ↔ ∃ px py, ¬ s.pixelSet px py ∧ t.pixelSet px py)

/-- `display_dirty` is 1 exactly for a core step that completes a 00E0 or a DXYN, and a core step for which it is 0 leaves
every pixel as it was (`60_exceptions.md` section 4, D23). -/
def Obligations.DisplayDirtyTellsEveryChange : Prop :=
  ∀ s t : State, s.coreNext → step s = .next t →
    (s.displayDirty = true ↔ t.noFault ∧ (s.about .cls ∨ ∃ x y n, s.about (.drw x y n))) ∧
    (s.displayDirty = false → t.disp = s.disp)

/-! ## Timers and keys -/

/-- A tick, in either mode, takes each timer one down with floor 0 and changes nothing else; n ticks take it n down, floor
0 (`60_exceptions.md` section 3). -/
def Obligations.TicksDecrementTheTimers : Prop :=
  ∀ s : State, s.noFault →
    (∃ t, deliver .tick s = .next t ∧ t.dt.toNat = s.dt.toNat - 1 ∧ t.st.toNat = s.st.toNat - 1 ∧
      Frame [.dt, .st] s t) ∧
    (∀ n : Nat, ∃ t, deliverAll (List.replicate n .tick) s = .next t ∧ t.dt.toNat = s.dt.toNat - n ∧
      t.st.toNat = s.st.toNat - n ∧ Frame [.dt, .st] s t)

/-- FX07 reads DT into V[X], FX15 and FX18 write V[X] to DT and ST; the sound output is on exactly while ST is not 0
(`45_timer_key.md`; general knowledge). -/
def Obligations.TimerInstructions : Prop :=
  ∀ (x : Reg) (s : State),
    (∃ t, exec (.ldVxDt x) s = .next t ∧ t.getV x = s.dt ∧ t.pc = s.pc + 2 ∧ RegsKept [x] s t ∧ Frame [.v, .pc] s t) ∧
    (∃ t, exec (.ldDtVx x) s = .next t ∧ t.dt = s.getV x ∧ t.pc = s.pc + 2 ∧ Frame [.dt, .pc] s t) ∧
    (∃ t, exec (.ldStVx x) s = .next t ∧ t.st = s.getV x ∧ t.pc = s.pc + 2 ∧ Frame [.st, .pc] s t ∧
      (t.soundOn = true ↔ s.getV x ≠ 0))

/-- DT and ST are 0 at reset, DT is written by FX15 and ST by FX18 and by no other instruction, a tick takes each one
down with floor 0, DT is read by FX07 alone and ST by no instruction: what they hold changes nothing else that an
instruction does, and the sound output is ST (`10_state.md` section 4). -/
def Obligations.TimersAreReadAndWrittenOnlyAsSaid : Prop :=
  State.reset.dt = 0 ∧ State.reset.st = 0 ∧
  (∀ s : State, s.noFault → ∃ t, deliver .tick s = .next t ∧ t.dt.toNat = s.dt.toNat - 1 ∧ t.st.toNat = s.st.toNat - 1) ∧
  (∀ (i : Instr) (s t : State), exec i s = .next t →
    (t.dt = s.dt ∨ ∃ x, i = .ldDtVx x ∧ t.dt = s.getV x) ∧ (t.st = s.st ∨ ∃ x, i = .ldStVx x ∧ t.st = s.getV x)) ∧
  (∀ (i : Instr) (s t : State) (d : Byte), (∀ x, i ≠ .ldVxDt x) → exec i s = .next t →
    ∃ u, exec i { s with dt := d } = .next u ∧ Frame [.dt] t u) ∧
  (∀ (i : Instr) (s t : State) (d : Byte), exec i s = .next t →
    ∃ u, exec i { s with st := d } = .next u ∧ Frame [.st] t u) ∧
  (∀ s : State, s.soundOn = true ↔ s.st ≠ 0)

/-- FX0A enters the wait: WAITREG <- X, the mode becomes WaitingForKey, PC stays at the FX0A, the status is Waiting, and
no register changes even when a key is down (`45_timer_key.md`, D19). -/
def Obligations.KeyWaitIsEntered : Prop :=
  ∀ (x : Reg) (s : State), s.noFault → ∃ t, exec (.ldVxK x) s = .next t ∧ t.waitReg = x ∧ t.mode = .waitingForKey ∧
    t.status = .waiting ∧ Frame [.waitReg, .mode] s t

/-- A core step while waiting: with no key pressed nothing changes; else the lowest pressed key's number goes to
V[WAITREG], PC moves 2 on, the mode becomes Running, and the latch is kept (`45_timer_key.md`, D19, D20). -/
def Obligations.KeyWaitEndsOnTheLowestKey : Prop :=
  ∀ s : State, s.coreNext → s.noFault → s.mode = .waitingForKey →
    ((∀ k < 16, s.key.getLsbD k = false) → step s = .next s) ∧
    (∀ k0 < 16, s.key.getLsbD k0 = true → (∀ k < k0, s.key.getLsbD k = false) →
      ∃ t, step s = .next t ∧ (t.getV s.waitReg).toNat = k0 ∧ t.pc = s.pc + 2 ∧ t.mode = .running ∧
        t.status = .running ∧ RegsKept [s.waitReg] s t ∧ Frame [.v, .pc, .mode] s t)

/-- The engine starts in Running; a core step takes it to WaitingForKey only by executing FX0A, and from
WaitingForKey it goes to Running exactly when a key is pressed, with that key's number in the target register; without a
key the step changes nothing; ticks and key changes never change the mode (`10_state.md` section 5). -/
def Obligations.ModeChangesOnlyAsSaid : Prop :=
  State.reset.mode = .running ∧
  (∀ s t : State, s.coreNext → step s = .next t → s.mode = .running → t.mode = .waitingForKey →
    ∃ x, s.about (.ldVxK x)) ∧
  (∀ s t : State, s.coreNext → s.noFault → step s = .next t → s.mode = .waitingForKey →
    (t.mode = .running ↔ ∃ k < 16, s.key.getLsbD k = true) ∧
    (t.mode = .running → s.key.getLsbD (t.getV s.waitReg).toNat = true) ∧
    (t.mode = .waitingForKey → t = s)) ∧
  (∀ s t : State, deliver .tick s = .next t → t.mode = s.mode) ∧
  (∀ (s t : State) (key : BitVec 16), deliver (.keyIn key) s = .next t → t.mode = s.mode)

/-- The key latch is written by the keypad alone, in every mode and after a fault, which changes nothing else, and
is read in three places only: no core step writes it, and no instruction but EX9E and EXA1 does anything that depends on
it (`60_exceptions.md` section 4). -/
def Obligations.KeysAreWrittenOutsideAndReadInThreePlaces : Prop :=
  (∀ (key : BitVec 16) (s : State), ∃ t, deliver (.keyIn key) s = .next t ∧ t.key = key ∧ Frame [.key] s t) ∧
  (∀ s t : State, s.coreNext → step s = .next t → t.key = s.key) ∧
  (∀ (i : Instr) (s t : State) (key : BitVec 16), (∀ x, i ≠ .skp x) → (∀ x, i ≠ .sknp x) → exec i s = .next t →
    exec i { s with key := key } = .next { t with key := key })

/-! ## The end of a run -/

/-- A program at a jump to itself has ended: any moves but a reset leave it there, with no item but DT, ST and KEY ever
changed (`70_reset_and_hazards.md` section 5, D27; the convention is the spec's own choice, log 10). -/
def Obligations.ASelfJumpIsTheEnd : Prop :=
  ∀ (es : List AgentEvent) (s : State), (∀ e ∈ es, e.keepsSession = true) → s.atSelfJump →
    ∃ t, deliverAll es s = .next t ∧ t = { s with dt := t.dt, st := t.st, key := t.key } ∧ t.atSelfJump ∧
      SafeRun es s
end

