-- ==== Sys2Proof/Laws/Decode.lean ====
section
/-! SUPPORT. Words as numbers: the value of a word of each format of `30_encoding.md` R62, the value of each field, and
the fields of a formatted word. -/

namespace Sys2Proof

theorem toNat_append_eq {m n : Nat} (a : BitVec m) (b : BitVec n) :
    (a ++ b).toNat = a.toNat * 2 ^ n + b.toNat := by
  rw [BitVec.toNat_append, ← Nat.shiftLeft_add_eq_or_of_lt b.isLt, Nat.shiftLeft_eq]

theorem eq_ofNat_of_toNat {k : Nat} {v : BitVec k} {n : Nat} (h : v.toNat = n) : v = BitVec.ofNat k n := by
  subst h; simp

section
variable (op : BitVec 4) (x y : Reg) (n : BitVec 4) (nn : Byte) (nnn : BitVec 12) (w : Word)

theorem toNat_regBits : (regBits x).toNat = x.val := by
  simp [regBits]

theorem toNat_fmtNNN : (fmtNNN op nnn).toNat = op.toNat * 4096 + nnn.toNat := toNat_append_eq op nnn

theorem toNat_fmtXNN : (fmtXNN op x nn).toNat = op.toNat * 4096 + x.val * 256 + nn.toNat := by
  refine (toNat_append_eq (op ++ regBits x : BitVec 8) nn).trans ?_
  rw [show (op ++ regBits x : BitVec 8).toNat = _ from toNat_append_eq op (regBits x), toNat_regBits]
  omega

theorem toNat_fmtXYN : (fmtXYN op x y n).toNat = op.toNat * 4096 + x.val * 256 + y.val * 16 + n.toNat := by
  refine (toNat_append_eq (op ++ regBits x : BitVec 8) (regBits y ++ n : BitVec 8)).trans ?_
  rw [show (op ++ regBits x : BitVec 8).toNat = _ from toNat_append_eq op (regBits x), toNat_regBits,
    show (regBits y ++ n : BitVec 8).toNat = _ from toNat_append_eq (regBits y) n, toNat_regBits]
  omega

theorem toNat_fieldOp : (fieldOp w).toNat = w.toNat / 4096 := by
  have := w.isLt
  simp [fieldOp, Nat.shiftRight_eq_div_pow]
  omega

theorem val_fieldX : (fieldX w).val = w.toNat / 256 % 16 := by
  simp [fieldX, Nat.shiftRight_eq_div_pow]

theorem val_fieldY : (fieldY w).val = w.toNat / 16 % 16 := by
  simp [fieldY, Nat.shiftRight_eq_div_pow]

theorem toNat_fieldN : (fieldN w).toNat = w.toNat % 16 := by simp [fieldN]

theorem toNat_fieldNN : (fieldNN w).toNat = w.toNat % 256 := by simp [fieldNN]

theorem toNat_fieldNNN : (fieldNNN w).toNat = w.toNat % 4096 := by simp [fieldNNN, Config.addrBits]

/-! ## The fields of a formatted word -/

theorem fieldOp_fmtNNN : fieldOp (fmtNNN op nnn) = op := by
  have := nnn.isLt
  apply BitVec.eq_of_toNat_eq; rw [toNat_fieldOp, toNat_fmtNNN]; omega

theorem fieldNNN_fmtNNN : fieldNNN (fmtNNN op nnn) = nnn := by
  have := nnn.isLt
  apply BitVec.eq_of_toNat_eq; rw [toNat_fieldNNN, toNat_fmtNNN]; omega

theorem fieldOp_fmtXNN : fieldOp (fmtXNN op x nn) = op := by
  have := nn.isLt; have := x.isLt
  apply BitVec.eq_of_toNat_eq; rw [toNat_fieldOp, toNat_fmtXNN]; omega

theorem fieldX_fmtXNN : fieldX (fmtXNN op x nn) = x := by
  have := nn.isLt; have := x.isLt
  apply Fin.ext; rw [val_fieldX, toNat_fmtXNN]; omega

theorem fieldNN_fmtXNN : fieldNN (fmtXNN op x nn) = nn := by
  have := nn.isLt
  apply BitVec.eq_of_toNat_eq; rw [toNat_fieldNN, toNat_fmtXNN]; omega

theorem fieldOp_fmtXYN : fieldOp (fmtXYN op x y n) = op := by
  have := n.isLt; have := x.isLt; have := y.isLt
  apply BitVec.eq_of_toNat_eq; rw [toNat_fieldOp, toNat_fmtXYN]; omega

theorem fieldX_fmtXYN : fieldX (fmtXYN op x y n) = x := by
  have := n.isLt; have := x.isLt; have := y.isLt
  apply Fin.ext; rw [val_fieldX, toNat_fmtXYN]; omega

theorem fieldY_fmtXYN : fieldY (fmtXYN op x y n) = y := by
  have := n.isLt; have := y.isLt
  apply Fin.ext; rw [val_fieldY, toNat_fmtXYN]; omega

theorem fieldN_fmtXYN : fieldN (fmtXYN op x y n) = n := by
  have := n.isLt
  apply BitVec.eq_of_toNat_eq; rw [toNat_fieldN, toNat_fmtXYN]; omega

/-! ## A word is built of its fields -/

theorem fmtNNN_fields : fmtNNN (fieldOp w) (fieldNNN w) = w := by
  apply BitVec.eq_of_toNat_eq; rw [toNat_fmtNNN, toNat_fieldOp, toNat_fieldNNN]; omega

theorem fmtXNN_fields : fmtXNN (fieldOp w) (fieldX w) (fieldNN w) = w := by
  apply BitVec.eq_of_toNat_eq; rw [toNat_fmtXNN, toNat_fieldOp, val_fieldX, toNat_fieldNN]; omega

theorem fmtXYN_fields : fmtXYN (fieldOp w) (fieldX w) (fieldY w) (fieldN w) = w := by
  apply BitVec.eq_of_toNat_eq
  rw [toNat_fmtXYN, toNat_fieldOp, val_fieldX, val_fieldY, toNat_fieldN]
  omega

/-- The bytes of a word in memory order give the word back (`20_memory.md` R44). -/
theorem wordOfBytes_bytesOfWord : wordOfBytes (w.extractLsb' 8 8) (w.extractLsb' 0 8) = w := by
  have := w.isLt
  apply BitVec.eq_of_toNat_eq
  refine (toNat_append_eq (w.extractLsb' 8 8) (w.extractLsb' 0 8)).trans ?_
  simp [Nat.shiftRight_eq_div_pow]
  omega

end

end Sys2Proof
end

