-- ==== Sys2Proof/Laws/State.lean ====
section
/-! SUPPORT. The small lemmas of the state operations: one per field per update, and the read of a register after a
write of one. -/

namespace Sys2Proof.Machine

/-! ## The behaviour options have the spec's values (`00_scope.md` R6) -/

@[simp] theorem shiftUsesVy_eq : Config.shiftUsesVy = false := rfl
@[simp] theorem loadStoreIncI_eq : Config.loadStoreIncI = false := rfl
@[simp] theorem logicResetsVf_eq : Config.logicResetsVf = false := rfl
@[simp] theorem addISetsVf_eq : Config.addISetsVf = false := rfl

/-! ## The widths (`00_scope.md` R5)

The types of State write a width as a numeral, which the arithmetic procedures need. Each lemma below types one field by
its constant of Config, so that a constant and a type that disagree do not compile. -/

@[simp] theorem Config.addrBits_eq : Config.addrBits = 12 := rfl
@[simp] theorem Config.vBits_eq : Config.vBits = 8 := rfl
@[simp] theorem Config.iBits_eq : Config.iBits = 16 := rfl
@[simp] theorem Config.pcBits_eq : Config.pcBits = 16 := rfl
@[simp] theorem Config.stackEntryBits_eq : Config.stackEntryBits = 16 := rfl
@[simp] theorem Config.timerBits_eq : Config.timerBits = 8 := rfl

theorem fieldNNN_width (w : Word) : fieldNNN w = BitVec.ofNat Config.addrBits (fieldNNN w).toNat := by simp
theorem State.v_width (s : State) (x : Reg) : s.v[x.val] = BitVec.ofNat Config.vBits (s.getV x).toNat := by
  simp [State.getV]
theorem State.i_width (s : State) : s.i = BitVec.ofNat Config.iBits s.i.toNat := by simp
theorem State.pc_width (s : State) : s.pc = BitVec.ofNat Config.pcBits s.pc.toNat := by simp
theorem State.stack_width (s : State) (k : Fin Config.stackDepth) :
    s.stack[k.val] = BitVec.ofNat Config.stackEntryBits (s.stack[k.val]).toNat := by simp
theorem State.dt_width (s : State) : s.dt = BitVec.ofNat Config.timerBits s.dt.toNat := by simp
theorem State.st_width (s : State) : s.st = BitVec.ofNat Config.timerBits s.st.toNat := by simp

variable (s : State) (x y r : Reg) (b : Byte) (a : Word)

@[simp] theorem State.shiftOperand_eq : s.shiftOperand x y = s.getV x := rfl
@[simp] theorem State.afterTransfer_eq : s.afterTransfer x = s := rfl
@[simp] theorem State.afterLogic_eq : s.afterLogic = s := rfl
@[simp] theorem State.afterAddI_eq (n : Nat) : s.afterAddI n = s := rfl

/-! ## setV -/

@[simp] theorem State.setV_mem : (s.setV x b).mem = s.mem := rfl
@[simp] theorem State.setV_i : (s.setV x b).i = s.i := rfl
@[simp] theorem State.setV_pc : (s.setV x b).pc = s.pc := rfl
@[simp] theorem State.setV_stack : (s.setV x b).stack = s.stack := rfl
@[simp] theorem State.setV_sp : (s.setV x b).sp = s.sp := rfl
@[simp] theorem State.setV_dt : (s.setV x b).dt = s.dt := rfl
@[simp] theorem State.setV_st : (s.setV x b).st = s.st := rfl
@[simp] theorem State.setV_key : (s.setV x b).key = s.key := rfl
@[simp] theorem State.setV_disp : (s.setV x b).disp = s.disp := rfl
@[simp] theorem State.setV_mode : (s.setV x b).mode = s.mode := rfl
@[simp] theorem State.setV_waitReg : (s.setV x b).waitReg = s.waitReg := rfl
@[simp] theorem State.setV_fault : (s.setV x b).fault = s.fault := rfl
@[simp] theorem State.setV_rndIndex : (s.setV x b).rndIndex = s.rndIndex := rfl
@[simp] theorem State.setV_schedule : (s.setV x b).schedule = s.schedule := rfl

/-- The read of a register after a write of one. -/
theorem State.getV_setV : (s.setV x b).getV r = if r = x then b else s.getV r := by
  by_cases h : r = x
  · subst h
    simp [State.getV, State.setV]
  · have h' : x.val ≠ r.val := fun e => h (Fin.ext e.symm)
    simp [State.getV, State.setV, h, Vector.getElem_set_ne, h']

@[simp] theorem State.getV_setV_self : (s.setV x b).getV x = b := by simp [State.getV_setV]

theorem State.getV_setV_ne (h : r ≠ x) : (s.setV x b).getV r = s.getV r := by simp [State.getV_setV, h]

/-- A register reads from `V` alone. -/
theorem State.getV_congr {t : State} (h : t.v = s.v) : t.getV r = s.getV r := by simp [State.getV, h]

/-- The flag is written last: VF holds the flag, X the result where X is not VF, the rest is kept (`10_state.md` R13). -/
theorem State.getV_setVThenFlag (f : Bool) :
    (s.setVThenFlag x b f).getV r = if r = vf then flagByte f else if r = x then b else s.getV r := by
  simp [State.setVThenFlag, State.getV_setV]

/-! ## setVThenFlag -/

@[simp] theorem State.setVThenFlag_mem (f : Bool) : (s.setVThenFlag x b f).mem = s.mem := rfl
@[simp] theorem State.setVThenFlag_i (f : Bool) : (s.setVThenFlag x b f).i = s.i := rfl
@[simp] theorem State.setVThenFlag_pc (f : Bool) : (s.setVThenFlag x b f).pc = s.pc := rfl
@[simp] theorem State.setVThenFlag_stack (f : Bool) : (s.setVThenFlag x b f).stack = s.stack := rfl
@[simp] theorem State.setVThenFlag_sp (f : Bool) : (s.setVThenFlag x b f).sp = s.sp := rfl
@[simp] theorem State.setVThenFlag_dt (f : Bool) : (s.setVThenFlag x b f).dt = s.dt := rfl
@[simp] theorem State.setVThenFlag_st (f : Bool) : (s.setVThenFlag x b f).st = s.st := rfl
@[simp] theorem State.setVThenFlag_key (f : Bool) : (s.setVThenFlag x b f).key = s.key := rfl
@[simp] theorem State.setVThenFlag_disp (f : Bool) : (s.setVThenFlag x b f).disp = s.disp := rfl
@[simp] theorem State.setVThenFlag_mode (f : Bool) : (s.setVThenFlag x b f).mode = s.mode := rfl
@[simp] theorem State.setVThenFlag_waitReg (f : Bool) : (s.setVThenFlag x b f).waitReg = s.waitReg := rfl
@[simp] theorem State.setVThenFlag_fault (f : Bool) : (s.setVThenFlag x b f).fault = s.fault := rfl
@[simp] theorem State.setVThenFlag_rndIndex (f : Bool) : (s.setVThenFlag x b f).rndIndex = s.rndIndex := rfl
@[simp] theorem State.setVThenFlag_schedule (f : Bool) : (s.setVThenFlag x b f).schedule = s.schedule := rfl

/-! ## advance, skipIf, jump: PC and nothing else -/

@[simp] theorem State.nextPc_eq : s.nextPc = s.pc + 2 := rfl
@[simp] theorem State.skipPc_eq : s.skipPc = s.pc + 4 := rfl
theorem State.advance_eq : s.advance = { s with pc := s.pc + 2 } := rfl
@[simp] theorem State.advance_pc : s.advance.pc = s.pc + 2 := rfl
@[simp] theorem State.advance_v : s.advance.v = s.v := rfl
@[simp] theorem State.advance_getV : s.advance.getV r = s.getV r := rfl
@[simp] theorem State.advance_mem : s.advance.mem = s.mem := rfl
@[simp] theorem State.advance_i : s.advance.i = s.i := rfl
@[simp] theorem State.advance_stack : s.advance.stack = s.stack := rfl
@[simp] theorem State.advance_sp : s.advance.sp = s.sp := rfl
@[simp] theorem State.advance_dt : s.advance.dt = s.dt := rfl
@[simp] theorem State.advance_st : s.advance.st = s.st := rfl
@[simp] theorem State.advance_key : s.advance.key = s.key := rfl
@[simp] theorem State.advance_disp : s.advance.disp = s.disp := rfl
@[simp] theorem State.advance_mode : s.advance.mode = s.mode := rfl
@[simp] theorem State.advance_waitReg : s.advance.waitReg = s.waitReg := rfl
@[simp] theorem State.advance_fault : s.advance.fault = s.fault := rfl
@[simp] theorem State.advance_rndIndex : s.advance.rndIndex = s.rndIndex := rfl
@[simp] theorem State.advance_schedule : s.advance.schedule = s.schedule := rfl

theorem State.skipIf_eq (c : Bool) : s.skipIf c = { s with pc := if c then s.pc + 4 else s.pc + 2 } := rfl
theorem State.jump_eq : s.jump a = { s with pc := a } := rfl
theorem State.rndDrawn_eq : s.rndDrawn = { s with rndIndex := s.rndIndex + 1 } := rfl
@[simp] theorem State.skipIf_mem (c : Bool) : (s.skipIf c).mem = s.mem := rfl
@[simp] theorem State.skipIf_v (c : Bool) : (s.skipIf c).v = s.v := rfl
@[simp] theorem State.skipIf_i (c : Bool) : (s.skipIf c).i = s.i := rfl
@[simp] theorem State.skipIf_stack (c : Bool) : (s.skipIf c).stack = s.stack := rfl
@[simp] theorem State.skipIf_sp (c : Bool) : (s.skipIf c).sp = s.sp := rfl
@[simp] theorem State.skipIf_dt (c : Bool) : (s.skipIf c).dt = s.dt := rfl
@[simp] theorem State.skipIf_st (c : Bool) : (s.skipIf c).st = s.st := rfl
@[simp] theorem State.skipIf_key (c : Bool) : (s.skipIf c).key = s.key := rfl
@[simp] theorem State.skipIf_disp (c : Bool) : (s.skipIf c).disp = s.disp := rfl
@[simp] theorem State.skipIf_mode (c : Bool) : (s.skipIf c).mode = s.mode := rfl
@[simp] theorem State.skipIf_waitReg (c : Bool) : (s.skipIf c).waitReg = s.waitReg := rfl
@[simp] theorem State.skipIf_fault (c : Bool) : (s.skipIf c).fault = s.fault := rfl
@[simp] theorem State.skipIf_rndIndex (c : Bool) : (s.skipIf c).rndIndex = s.rndIndex := rfl
@[simp] theorem State.skipIf_schedule (c : Bool) : (s.skipIf c).schedule = s.schedule := rfl
@[simp] theorem State.skipIf_getV (c : Bool) : (s.skipIf c).getV r = s.getV r := rfl
@[simp] theorem State.jump_mem : (s.jump a).mem = s.mem := rfl
@[simp] theorem State.jump_v : (s.jump a).v = s.v := rfl
@[simp] theorem State.jump_i : (s.jump a).i = s.i := rfl
@[simp] theorem State.jump_stack : (s.jump a).stack = s.stack := rfl
@[simp] theorem State.jump_sp : (s.jump a).sp = s.sp := rfl
@[simp] theorem State.jump_dt : (s.jump a).dt = s.dt := rfl
@[simp] theorem State.jump_st : (s.jump a).st = s.st := rfl
@[simp] theorem State.jump_key : (s.jump a).key = s.key := rfl
@[simp] theorem State.jump_disp : (s.jump a).disp = s.disp := rfl
@[simp] theorem State.jump_mode : (s.jump a).mode = s.mode := rfl
@[simp] theorem State.jump_waitReg : (s.jump a).waitReg = s.waitReg := rfl
@[simp] theorem State.jump_fault : (s.jump a).fault = s.fault := rfl
@[simp] theorem State.jump_rndIndex : (s.jump a).rndIndex = s.rndIndex := rfl
@[simp] theorem State.jump_schedule : (s.jump a).schedule = s.schedule := rfl
@[simp] theorem State.jump_getV : (s.jump a).getV r = s.getV r := rfl
@[simp] theorem State.rndDrawn_mem : (s.rndDrawn).mem = s.mem := rfl
@[simp] theorem State.rndDrawn_v : (s.rndDrawn).v = s.v := rfl
@[simp] theorem State.rndDrawn_i : (s.rndDrawn).i = s.i := rfl
@[simp] theorem State.rndDrawn_pc : (s.rndDrawn).pc = s.pc := rfl
@[simp] theorem State.rndDrawn_stack : (s.rndDrawn).stack = s.stack := rfl
@[simp] theorem State.rndDrawn_sp : (s.rndDrawn).sp = s.sp := rfl
@[simp] theorem State.rndDrawn_dt : (s.rndDrawn).dt = s.dt := rfl
@[simp] theorem State.rndDrawn_st : (s.rndDrawn).st = s.st := rfl
@[simp] theorem State.rndDrawn_key : (s.rndDrawn).key = s.key := rfl
@[simp] theorem State.rndDrawn_disp : (s.rndDrawn).disp = s.disp := rfl
@[simp] theorem State.rndDrawn_mode : (s.rndDrawn).mode = s.mode := rfl
@[simp] theorem State.rndDrawn_waitReg : (s.rndDrawn).waitReg = s.waitReg := rfl
@[simp] theorem State.rndDrawn_fault : (s.rndDrawn).fault = s.fault := rfl
@[simp] theorem State.rndDrawn_schedule : (s.rndDrawn).schedule = s.schedule := rfl
@[simp] theorem State.rndDrawn_getV : (s.rndDrawn).getV r = s.getV r := rfl
@[simp] theorem State.skipIf_pc (c : Bool) : (s.skipIf c).pc = if c then s.pc + 4 else s.pc + 2 := rfl
@[simp] theorem State.jump_pc : (s.jump a).pc = a := rfl
@[simp] theorem State.rndDrawn_rndIndex : s.rndDrawn.rndIndex = s.rndIndex + 1 := rfl

/-! ## The bound of a transfer (`43_index_memory.md` R126) -/

theorem State.transferFits_iff (n : Nat) : s.transferFits n = true ↔ n = 0 ∨ s.i.toNat + (n - 1) < 4096 := by
  simp only [State.transferFits, Bool.or_eq_true, beq_iff_eq, decide_eq_true_eq]
  rfl

/-! ## The return stack -/

/-- Everything a push can do. -/
theorem State.push_cases :
    (s.sp.val = Config.stackDepth ∧ s.push a = none) ∨
    (∃ h : s.sp.val < Config.stackDepth, s.push a =
      some { s with stack := s.stack.set s.sp.val a, sp := ⟨s.sp.val + 1, Nat.succ_lt_succ h⟩ }) := by
  by_cases h : s.sp.val < Config.stackDepth
  · exact .inr ⟨h, by simp only [State.push, dif_pos h]⟩
  · exact .inl ⟨by have := s.sp.isLt; omega, by simp only [State.push, dif_neg h]⟩

/-- Everything a pop can do. -/
theorem State.pop_cases :
    (s.sp.val = 0 ∧ s.pop = none) ∨
    (∃ h : 0 < s.sp.val, s.pop = some (s.stack[s.sp.val - 1]'(by have := s.sp.isLt; omega),
      { s with sp := ⟨s.sp.val - 1, by have := s.sp.isLt; omega⟩ })) := by
  by_cases h : 0 < s.sp.val
  · exact .inr ⟨h, by simp only [State.pop, dif_pos h]⟩
  · exact .inl ⟨by omega, by simp only [State.pop, dif_neg h]⟩

/-! ## Taking a fault -/

/-- The next state of a fault: the record and nothing else (`60_exceptions.md` R152). -/
theorem raise_eq (c : FaultCause) (op pc : Word) :
    raise c op pc s = .next { s with fault := ⟨true, c, op, pc⟩ } := rfl

theorem raiseAt_eq (c : FaultCause) (i : Instr) :
    raiseAt c i s = .next { s with fault := ⟨true, c, encode i, s.pc⟩ } := rfl

/-! ## Blocks of registers -/

/-- What a block of register writes changes: registers `k` to `k + length - 1` hold the list's bytes. -/
theorem State.getV_setVs (bs : List Byte) : ∀ (k : Nat) (s : State) (r : Reg),
    (s.setVs k bs).getV r = if h : k ≤ r.val ∧ r.val - k < bs.length then bs[r.val - k]'h.2 else s.getV r := by
  induction bs with
  | nil => intro k s r; simp [State.setVs]
  | cons c cs ih =>
    intro k s r
    unfold State.setVs
    by_cases hk : k < Config.numV
    · rw [dif_pos hk, ih]
      by_cases hr : k + 1 ≤ r.val ∧ r.val - (k + 1) < cs.length
      · have e : r.val - k = (r.val - (k + 1)) + 1 := by omega
        have h2 : k ≤ r.val ∧ r.val - k < (c :: cs).length := by simp only [List.length_cons]; omega
        rw [dif_pos hr, dif_pos h2]
        simp only [e, List.getElem_cons_succ]
      · rw [dif_neg hr, State.getV_setV]
        by_cases he : r.val = k
        · have hx : r = ⟨k, hk⟩ := Fin.ext he
          have h2 : k ≤ r.val ∧ r.val - k < (c :: cs).length := by simp only [List.length_cons]; omega
          rw [dif_pos h2, if_pos hx]
          simp only [he, Nat.sub_self, List.getElem_cons_zero]
        · have hx : r ≠ ⟨k, hk⟩ := fun e => he (by simpa using congrArg Fin.val e)
          have h2 : ¬ (k ≤ r.val ∧ r.val - k < (c :: cs).length) := by simp only [List.length_cons]; omega
          rw [dif_neg h2, if_neg hx]
    · have hr : ¬ (k ≤ r.val ∧ r.val - k < (c :: cs).length) := by have := r.isLt; simp only [Config.numV] at hk; omega
      rw [dif_neg hk, dif_neg hr]

/-- A block of register writes changes `V` and nothing else. -/
theorem State.setVs_eq (bs : List Byte) : ∀ (k : Nat) (s : State), s.setVs k bs = { s with v := (s.setVs k bs).v } := by
  induction bs with
  | nil => intro k s; rfl
  | cons c cs ih =>
    intro k s
    unfold State.setVs
    split
    · rw [ih]; rfl
    · rfl

@[simp] theorem State.length_getVs (n : Nat) : ∀ k, k + n ≤ Config.numV → (s.getVs k n).length = n := by
  induction n with
  | zero => intro k _; rfl
  | succ n ih =>
    intro k h
    unfold State.getVs
    rw [dif_pos (by omega)]
    simp [ih (k + 1) (by omega)]

/-- The byte at place `j` of a block of registers is that of register `k + j`. -/
theorem State.getElem_getVs (n : Nat) : ∀ (k j : Nat) (hj : j < (s.getVs k n).length) (hr : k + j < 16),
    (s.getVs k n)[j] = s.getV ⟨k + j, hr⟩ := by
  induction n with
  | zero => intro k j hj; simp [State.getVs] at hj
  | succ n ih =>
    intro k j hj hr
    have hk : k < Config.numV := by simp only [Config.numV]; omega
    have e : s.getVs k (n + 1) = s.getV ⟨k, hk⟩ :: s.getVs (k + 1) n := by
      conv_lhs => unfold State.getVs
      rw [dif_pos hk]
    cases j with
    | zero => simp [e]
    | succ j =>
      have hr' : k + 1 + j < 16 := by omega
      have hj' : j < (s.getVs (k + 1) n).length := by simp [e] at hj; omega
      have := ih (k + 1) j hj' hr'
      simp only [e, List.getElem_cons_succ, this]
      congr 1
      exact Fin.ext (by simp; omega)

/-! ## Events -/

theorem tickEvent_faulted (h : s.fault.faulted = true) : tickEvent s = s := by simp [tickEvent, h]

theorem tickEvent_running (h : s.fault.faulted = false) :
    tickEvent s = { s with dt := timerTick s.dt, st := timerTick s.st } := by simp [tickEvent, h]

/-- Everything a load can do. -/
theorem loadEvent_cases (rom : List Byte) :
    (rom.length ≤ Config.romMax ∧
      loadEvent rom s = .next { s with mem := Memory.writeBytes s.mem Config.romBase rom }) ∨
    (Config.romMax < rom.length ∧ loadEvent rom s = raise .romTooLarge 0 0x200 s) := by
  by_cases h : rom.length ≤ Config.romMax
  · exact .inl ⟨h, by simp [loadEvent, h]⟩
  · exact .inr ⟨by omega, by simp [loadEvent, h, Config.romBase]⟩

end Sys2Proof.Machine
end

