-- ==== Sys2Proof/Laws/Exec.lean ====
section
/-! SUPPORT. When an instruction takes a fault, and what is then left (`60_exceptions.md` R150, R152). -/

namespace Sys2Proof.Machine

/-- The condition under which an instruction of its own takes the fault `c` (the table of `60_exceptions.md` R150). -/
def FaultsWith (i : Instr) (s : State) (c : FaultCause) : Prop :=
  (c = .invalidOpcode ∧ ∃ nnn, i = .sys nnn) ∨
  (c = .stackUnderflow ∧ i = .ret ∧ s.sp.val = 0) ∨
  (c = .stackOverflow ∧ (∃ nnn, i = .call nnn) ∧ s.sp.val = 12) ∨
  (c = .outOfBounds ∧
    ((∃ x y n, i = .drw x y n ∧ 0 < n.toNat ∧ 4096 ≤ s.i.toNat + n.toNat - 1) ∨
     (∃ x, i = .ldB x ∧ 4096 ≤ s.i.toNat + 2) ∨
     ∃ x, (i = .ldMemVx x ∨ i = .ldVxMem x) ∧ 4096 ≤ s.i.toNat + x.val))

theorem not_transferFits {s : State} {n : Nat} (h : ¬ s.transferFits n = true) : 0 < n ∧ 4096 ≤ s.i.toNat + (n - 1) := by
  rw [State.transferFits_iff] at h
  omega

/-- An instruction either leaves the fault record alone, or takes the one fault its rule names, writing the record and
nothing else. -/
theorem exec_fault_cases (i : Instr) (s t : State) (h : exec i s = .next t) :
    t.fault = s.fault ∨ ∃ c, t = { s with fault := ⟨true, c, encode i, s.pc⟩ } ∧ FaultsWith i s c := by
  cases i
  all_goals simp only [exec] at h
  case sys => cases h; exact .inr ⟨_, rfl, .inl ⟨rfl, _, rfl⟩⟩
  case ret =>
    unfold execRet at h
    rcases s.pop_cases with ⟨hz, e⟩ | ⟨_, e⟩ <;> rw [e] at h <;> cases h
    · exact .inr ⟨_, rfl, .inr (.inl ⟨rfl, rfl, hz⟩)⟩
    · exact .inl rfl
  case call =>
    unfold execCall at h
    rcases s.push_cases s.nextPc with ⟨hz, e⟩ | ⟨_, e⟩ <;> rw [e] at h <;> cases h
    · exact .inr ⟨_, rfl, .inr (.inr (.inl ⟨rfl, ⟨_, rfl⟩, hz⟩))⟩
    · exact .inl rfl
  case drw x y n =>
    unfold execDrw at h
    split at h
    · cases h; exact .inl rfl
    · next hf =>
      have := not_transferFits hf
      cases h
      exact .inr ⟨_, rfl, .inr (.inr (.inr ⟨rfl, .inl ⟨x, y, n, rfl, this.1, by omega⟩⟩))⟩
  case ldB x =>
    unfold execLdB at h
    split at h
    · cases h; exact .inl rfl
    · next hf =>
      have := not_transferFits hf
      cases h
      exact .inr ⟨_, rfl, .inr (.inr (.inr ⟨rfl, .inr (.inl ⟨x, rfl, by omega⟩)⟩))⟩
  case ldMemVx x =>
    unfold execLdMemVx at h
    split at h
    · cases h; exact .inl rfl
    · next hf =>
      have := not_transferFits hf
      cases h
      exact .inr ⟨_, rfl, .inr (.inr (.inr ⟨rfl, .inr (.inr ⟨x, .inl rfl, by omega⟩)⟩))⟩
  case ldVxMem x =>
    unfold execLdVxMem at h
    split at h
    · rw [State.setVs_eq] at h; cases h; exact .inl rfl
    · next hf =>
      have := not_transferFits hf
      cases h
      exact .inr ⟨_, rfl, .inr (.inr (.inr ⟨rfl, .inr (.inr ⟨x, .inr rfl, by omega⟩)⟩))⟩
  all_goals (cases h; exact .inl rfl)

end Sys2Proof.Machine
end

