-- ==== Sys2Proof/Laws/Cycle.lean ====
section
/-! SUPPORT. Everything the core's step event can do, everything a move can do, and the key that ends a wait. -/

namespace Sys2Proof.Machine

/-- Everything the step event can do (`30_encoding.md` R64). -/
theorem stepEvent_cases (s t : State) (h : stepEvent s = .next t) :
    (s.fault.faulted = true ∧ t = s) ∨
    (s.noFault ∧ s.mode = .waitingForKey ∧ t = observeKeys s) ∨
    (s.ready ∧ s.fetch = none ∧ t = { s with fault := ⟨true, .outOfBounds, 0, s.pc⟩ }) ∨
    (∃ w, s.ready ∧ s.fetch = some w ∧ decodeWord w = none ∧
      t = { s with fault := ⟨true, .invalidOpcode, w, s.pc⟩ }) ∨
    (∃ w i, s.ready ∧ s.fetch = some w ∧ decodeWord w = some i ∧ exec i s = .next t) := by
  unfold stepEvent at h
  by_cases hf : s.fault.faulted = true
  · rw [if_pos hf] at h
    cases h
    exact .inl ⟨hf, rfl⟩
  · have hn : s.noFault := by simpa using hf
    rw [if_neg hf] at h
    split at h
    · next hm => cases h; exact .inr (.inl ⟨hn, hm, rfl⟩)
    · next hm =>
      have hr : s.ready := ⟨hn, hm⟩
      unfold runInstruction at h
      split at h
      · next hw => cases h; exact .inr (.inr (.inl ⟨hr, hw, rfl⟩))
      · next w hw =>
        split at h
        · next hd => cases h; exact .inr (.inr (.inr (.inl ⟨w, hr, hw, hd, rfl⟩)))
        · next i hd => exact .inr (.inr (.inr (.inr ⟨w, i, hr, hw, hd, h⟩)))

/-- A ready core runs the instruction it fetches. -/
theorem stepEvent_ready {s : State} {w : Word} {i : Instr} (hr : s.ready) (hf : s.fetch = some w)
    (hd : decodeWord w = some i) : stepEvent s = exec i s := by
  have h1 : ¬ s.fault.faulted = true := by simpa using hr.1
  unfold stepEvent
  rw [if_neg h1, hr.2]
  simp only [runInstruction, hf, hd]

/-- The fetch depends on PC and memory alone. -/
theorem State.fetch_congr {s t : State} (h1 : t.pc = s.pc) (h2 : t.mem = s.mem) : t.fetch = s.fetch := by
  unfold State.fetch; rw [h1, h2]

/-- A fetch succeeds exactly when both bytes lie in memory. -/
theorem State.fetch_cases (s : State) :
    (s.pc.toNat ≤ 4094 ∧
      s.fetch = some (wordOfBytes (Memory.read s.mem s.pc.toNat) (Memory.read s.mem (s.pc.toNat + 1)))) ∨
    (4095 ≤ s.pc.toNat ∧ s.fetch = none) := by
  unfold State.fetch
  by_cases h : s.pc.toNat + 1 < Config.memSize
  · exact .inl ⟨by simp only [Config.memSize] at h; omega, if_pos h⟩
  · exact .inr ⟨by simp only [Config.memSize] at h; omega, if_neg h⟩

/-- The value of a fetched word (`20_memory.md` R44). -/
theorem toNat_wordOfBytes (hi lo : Byte) : (wordOfBytes hi lo).toNat = hi.toNat * 256 + lo.toNat :=
  toNat_append_eq hi lo

/-- A property that every event keeps, and that the schedule does not touch, is kept by every move of the machine. -/
theorem step_keeps {P : State → Prop} (hs : ∀ s l, P s → P { s with schedule := l })
    (hd : ∀ e s t, P s → deliver e s = .next t → P t) (s t : State) (h : P s) (e : step s = .next t) : P t := by
  change nextMove s = _ at e
  unfold nextMove at e
  split at e
  · exact hd .step s t h e
  · exact hd _ _ t (hs _ _ h) e

/-- A property that every event of a kind keeps is kept by every list of such events. -/
theorem deliverAll_keeps {P : State → Prop} {ok : AgentEvent → Prop}
    (hd : ∀ e s t, ok e → P s → deliver e s = .next t → P t) (es : List AgentEvent) : ∀ s t, (∀ e ∈ es, ok e) → P s →
    deliverAll es s = .next t → P t := by
  induction es with
  | nil => intro s t _ hp h; cases h; exact hp
  | cons e es ih =>
    intro s t ho hp h
    unfold deliverAll at h
    split at h
    · next s' he =>
      exact ih s' t (fun e' h' => ho e' (List.mem_cons_of_mem _ h')) (hd e s s' (ho e List.mem_cons_self) hp he) h
    · cases h
    · cases h

/-! ## The key that ends a wait (`45_timer_key.md` R144) -/

theorem lowestKeyFrom_none (key : BitVec 16) (n : Nat) : ∀ k,
    lowestKeyFrom key k n = none ↔ ∀ j, k ≤ j → j < k + n → key.getLsbD j = false := by
  induction n with
  | zero => intro k; exact ⟨fun _ j h1 h2 => by omega, fun _ => rfl⟩
  | succ n ih =>
    intro k
    unfold lowestKeyFrom
    by_cases h : key.getLsbD k = true
    · rw [if_pos h]
      refine ⟨fun e => (by cases e), fun g => ?_⟩
      rw [g k (Nat.le_refl k) (by omega)] at h
      cases h
    · rw [if_neg h, ih]
      refine ⟨fun g j h1 h2 => ?_, fun g j h1 h2 => g j (by omega) (by omega)⟩
      by_cases e : j = k
      · subst e; simpa using h
      · exact g j (by omega) (by omega)

theorem lowestKeyFrom_some (key : BitVec 16) (n : Nat) : ∀ k m, lowestKeyFrom key k n = some m ↔
    k ≤ m ∧ m < k + n ∧ key.getLsbD m = true ∧ ∀ j, k ≤ j → j < m → key.getLsbD j = false := by
  induction n with
  | zero => intro k m; exact ⟨fun h => (by cases h), fun h => (by omega)⟩
  | succ n ih =>
    intro k m
    unfold lowestKeyFrom
    by_cases h : key.getLsbD k = true
    · rw [if_pos h]
      constructor
      · intro e
        cases e
        exact ⟨Nat.le_refl k, by omega, h, fun j h1 h2 => by omega⟩
      · rintro ⟨h1, -, -, h4⟩
        by_cases e : k = m
        · rw [e]
        · rw [h4 k (Nat.le_refl k) (by omega)] at h
          cases h
    · rw [if_neg h, ih]
      constructor
      · rintro ⟨h1, h2, h3, h4⟩
        refine ⟨by omega, by omega, h3, fun j a b => ?_⟩
        by_cases e : j = k
        · subst e; simpa using h
        · exact h4 j (by omega) b
      · rintro ⟨h1, h2, h3, h4⟩
        have hm : m ≠ k := fun e => h (e ▸ h3)
        exact ⟨by omega, by omega, h3, fun j a b => h4 j (by omega) b⟩

/-- No key is pressed. -/
theorem lowestKey_none (key : BitVec 16) : lowestKey key = none ↔ ∀ k < 16, key.getLsbD k = false := by
  simp [lowestKey, lowestKeyFrom_none, Config.numKeys]

/-- `m` is the smallest pressed key. -/
theorem lowestKey_some (key : BitVec 16) (m : Nat) :
    lowestKey key = some m ↔ m < 16 ∧ key.getLsbD m = true ∧ ∀ k < m, key.getLsbD k = false := by
  simp [lowestKey, lowestKeyFrom_some, Config.numKeys]

end Sys2Proof.Machine
end

