-- ==== Sys2Proof/Laws/Display.lean ====
section
/-! SUPPORT. What drawing a sprite does, pixel by pixel (`44_display.md` R131, R132, R133). -/

namespace Sys2Proof.Machine

theorem Display.pixel_setPixel (d : Display) (x x' : Fin Config.dispW) (y y' : Fin Config.dispH) (on : Bool) :
    Display.pixel (Display.setPixel d x y on) x' y' = if x' = x ∧ y' = y then on else Display.pixel d x' y' := by
  unfold Display.pixel Display.setPixel
  by_cases hy : y' = y
  · subst hy
    by_cases hx : x' = x
    · subst hx; simp
    · have : x.val ≠ x'.val := fun e => hx (Fin.ext e.symm)
      simp [hx, Vector.getElem_set_ne, this]
  · have : y.val ≠ y'.val := fun e => hy (Fin.ext e.symm)
    simp [hy, Vector.getElem_set_ne, this]

@[simp] theorem Display.pixel_clear (x : Fin Config.dispW) (y : Fin Config.dispH) :
    Display.pixel Display.clear x y = false := by
  simp [Display.pixel, Display.clear]

/-- Displays with the same pixels are equal. -/
theorem Display.ext_pixel {d d' : Display} (h : ∀ x y, Display.pixel d x y = Display.pixel d' x y) : d = d' := by
  apply Vector.ext
  intro y hy
  apply Vector.ext
  intro x hx
  exact h ⟨x, hx⟩ ⟨y, hy⟩

theorem wrapX_add_inj {x0 c c' : Nat} (h : c < 8) (h' : c' < 8) (e : wrapX (x0 + c) = wrapX (x0 + c')) : c = c' := by
  have := congrArg Fin.val e
  simp only [wrapX, Config.dispW] at this
  omega

theorem wrapY_add_inj {y0 r r' : Nat} (h : r < 32) (h' : r' < 32) (e : wrapY (y0 + r) = wrapY (y0 + r')) : r = r' := by
  have := congrArg Fin.val e
  simp only [wrapY, Config.dispH] at this
  omega

/-- A 1 bit among the first `k` columns of the row `b` drawn at (x0, y) lands on (px, py). -/
def RowCovers (x0 y : Nat) (b : Byte) (k : Nat) (px : Fin Config.dispW) (py : Fin Config.dispH) : Prop :=
  ∃ c, c < k ∧ px = wrapX (x0 + c) ∧ py = wrapY y ∧ b.getLsbD (7 - c) = true

theorem rowCovers_succ {x0 y : Nat} {b : Byte} {k : Nat} {px : Fin Config.dispW} {py : Fin Config.dispH} :
    RowCovers x0 y b (k + 1) px py ↔
      RowCovers x0 y b k px py ∨ (px = wrapX (x0 + k) ∧ py = wrapY y ∧ b.getLsbD (7 - k) = true) := by
  constructor
  · rintro ⟨c, hc, h⟩
    by_cases e : c = k
    · exact .inr (e ▸ h)
    · exact .inl ⟨c, by omega, h⟩
  · rintro (⟨c, hc, h⟩ | h)
    · exact ⟨c, by omega, h⟩
    · exact ⟨k, by omega, h⟩

/-- One row: every covered pixel is inverted, every other kept, and a covered set pixel is a hit. -/
theorem Canvas.drawRow_spec (x0 y : Nat) (b : Byte) (c : Canvas) : ∀ k, k ≤ 8 →
    (∀ px py, Display.pixel (c.drawRow x0 y b k).disp px py = true ↔
      ¬ (Display.pixel c.disp px py = true ↔ RowCovers x0 y b k px py)) ∧
    ((c.drawRow x0 y b k).hit = true ↔
      c.hit = true ∨ ∃ px py, RowCovers x0 y b k px py ∧ Display.pixel c.disp px py = true) := by
  intro k
  induction k with
  | zero =>
    intro _
    have h0 : ∀ px py, ¬ RowCovers x0 y b 0 px py := fun _ _ ⟨_, h, _⟩ => absurd h (Nat.not_lt_zero _)
    constructor
    · intro px py; simp [Canvas.drawRow, h0]
    · simp [Canvas.drawRow, h0]
  | succ k ih =>
    intro hk
    obtain ⟨ihp, ihh⟩ := ih (by omega)
    have hnot : ¬ RowCovers x0 y b k (wrapX (x0 + k)) (wrapY y) := by
      rintro ⟨c', hc', e, -⟩
      have := wrapX_add_inj (by omega) (by omega) e
      omega
    have hpix : Display.pixel (c.drawRow x0 y b k).disp (wrapX (x0 + k)) (wrapY y) =
        Display.pixel c.disp (wrapX (x0 + k)) (wrapY y) := by
      have := ihp (wrapX (x0 + k)) (wrapY y)
      simp only [hnot, iff_false, not_not] at this
      exact Bool.eq_iff_iff.mpr this
    unfold Canvas.drawRow
    by_cases hb : b.getLsbD (7 - k) = true
    · simp only [hb, if_true]
      constructor
      · intro px py
        simp only [Canvas.flip, Display.pixel_setPixel]
        by_cases e : px = wrapX (x0 + k) ∧ py = wrapY y
        · obtain ⟨rfl, rfl⟩ := e
          simp [rowCovers_succ, hb, hpix]
        · rw [if_neg e, ihp px py, rowCovers_succ]
          have : ¬ (px = wrapX (x0 + k) ∧ py = wrapY y ∧ b.getLsbD (7 - k) = true) := fun h => e ⟨h.1, h.2.1⟩
          simp [this]
      · simp only [Canvas.flip, Bool.or_eq_true, ihh, hpix, rowCovers_succ]
        constructor
        · rintro ((h | ⟨px, py, h1, h2⟩) | h)
          · exact .inl h
          · exact .inr ⟨px, py, .inl h1, h2⟩
          · exact .inr ⟨_, _, .inr ⟨rfl, rfl, hb⟩, h⟩
        · rintro (h | ⟨px, py, h1 | ⟨rfl, rfl, _⟩, h2⟩)
          · exact .inl (.inl h)
          · exact .inl (.inr ⟨px, py, h1, h2⟩)
          · exact .inr h2
    · simp only [hb]
      have hs : ∀ px py, RowCovers x0 y b (k + 1) px py ↔ RowCovers x0 y b k px py := by
        intro px py; simp [rowCovers_succ, hb]
      refine ⟨fun px py => ?_, ?_⟩
      · simp only [hs]; exact ihp px py
      · simp only [hs]; exact ihh

/-- A 1 bit of the sprite `bs` drawn at (x0, y0) lands on (px, py) (R132). -/
def SpriteCovers (x0 y0 : Nat) (bs : List Byte) (px : Fin Config.dispW) (py : Fin Config.dispH) : Prop :=
  ∃ (c r : Nat) (h : r < bs.length), c < 8 ∧ px = wrapX (x0 + c) ∧ py = wrapY (y0 + r) ∧ bs[r].getLsbD (7 - c) = true

theorem spriteCovers_cons {x0 y0 : Nat} {b : Byte} {bs : List Byte} {px : Fin Config.dispW} {py : Fin Config.dispH} :
    SpriteCovers x0 y0 (b :: bs) px py ↔ RowCovers x0 y0 b 8 px py ∨ SpriteCovers x0 (y0 + 1) bs px py := by
  constructor
  · rintro ⟨c, r, h, hc, hx, hy, hb⟩
    cases r with
    | zero => exact .inl ⟨c, hc, hx, hy, hb⟩
    | succ r =>
      refine .inr ⟨c, r, by simpa using h, hc, hx, ?_, by simpa using hb⟩
      rw [hy]; congr 1; omega
  · rintro (⟨c, hc, hx, hy, hb⟩ | ⟨c, r, h, hc, hx, hy, hb⟩)
    · exact ⟨c, 0, by simp, hc, hx, hy, hb⟩
    · refine ⟨c, r + 1, by simpa using h, hc, hx, ?_, by simpa using hb⟩
      rw [hy]; congr 1; omega

/-- A whole sprite of at most 32 rows: every covered pixel is inverted, every other kept, and a covered set pixel is a
hit, whatever the order the pixels are applied in (R132, R133). -/
theorem Canvas.drawSprite_spec (x0 : Nat) (bs : List Byte) : ∀ (y0 : Nat) (c : Canvas), bs.length ≤ 32 →
    (∀ px py, Display.pixel (c.drawSprite x0 y0 bs).disp px py = true ↔
      ¬ (Display.pixel c.disp px py = true ↔ SpriteCovers x0 y0 bs px py)) ∧
    ((c.drawSprite x0 y0 bs).hit = true ↔
      c.hit = true ∨ ∃ px py, SpriteCovers x0 y0 bs px py ∧ Display.pixel c.disp px py = true) := by
  induction bs with
  | nil =>
    intro y0 c _
    have h0 : ∀ px py, ¬ SpriteCovers x0 y0 [] px py := fun _ _ ⟨_, _, h, _⟩ => absurd h (Nat.not_lt_zero _)
    constructor
    · intro px py; simp [Canvas.drawSprite, h0]
    · simp [Canvas.drawSprite, h0]
  | cons b bs ih =>
    intro y0 c hl
    simp only [List.length_cons] at hl
    obtain ⟨rp, rh⟩ := Canvas.drawRow_spec x0 y0 b c 8 (Nat.le_refl 8)
    obtain ⟨sp, sh⟩ := ih (y0 + 1) (c.drawRow x0 y0 b 8) (by omega)
    have disj : ∀ px py, RowCovers x0 y0 b 8 px py → ¬ SpriteCovers x0 (y0 + 1) bs px py := by
      rintro px py ⟨c1, -, -, e1, -⟩ ⟨c2, r, hr, -, -, e2, -⟩
      have e : wrapY (y0 + 0) = wrapY (y0 + (r + 1)) := by
        rw [Nat.add_zero, ← e1, e2]; congr 1; omega
      have := wrapY_add_inj (by omega) (by omega) e
      omega
    unfold Canvas.drawSprite
    constructor
    · intro px py
      rw [sp px py, rp px py, spriteCovers_cons]
      have := disj px py
      tauto
    · rw [sh, rh]
      constructor
      · rintro ((h | ⟨px, py, h1, h2⟩) | ⟨px, py, h1, h2⟩)
        · exact .inl h
        · exact .inr ⟨px, py, spriteCovers_cons.mpr (.inl h1), h2⟩
        · refine .inr ⟨px, py, spriteCovers_cons.mpr (.inr h1), ?_⟩
          have hn : ¬ RowCovers x0 y0 b 8 px py := fun h => disj px py h h1
          have := (rp px py).mp h2
          simpa [hn] using this
      · rintro (h | ⟨px, py, h1, h2⟩)
        · exact .inl (.inl h)
        · rcases spriteCovers_cons.mp h1 with h1 | h1
          · exact .inl (.inr ⟨px, py, h1, h2⟩)
          · refine .inr ⟨px, py, h1, ?_⟩
            have hn : ¬ RowCovers x0 y0 b 8 px py := fun h => disj px py h h1
            exact (rp px py).mpr (by simp [hn, h2])

end Sys2Proof.Machine
end

