-- ==== Sys2Proof/Laws/Frame.lean ====
section
/-! SUPPORT. How a frame is shown and used: item by item. -/

namespace Sys2Proof.Machine

/-- A frame, written out. -/
theorem frame_iff {ws : List Item} {s t : State} : Frame ws s t ↔
    (.mem ∈ ws ∨ ∀ a, Memory.read t.mem a = Memory.read s.mem a) ∧ (.v ∈ ws ∨ ∀ r, t.getV r = s.getV r) ∧
    (.i ∈ ws ∨ t.i = s.i) ∧ (.pc ∈ ws ∨ t.pc = s.pc) ∧ (.stack ∈ ws ∨ t.stack = s.stack) ∧
    (.sp ∈ ws ∨ t.sp = s.sp) ∧ (.dt ∈ ws ∨ t.dt = s.dt) ∧ (.st ∈ ws ∨ t.st = s.st) ∧ (.key ∈ ws ∨ t.key = s.key) ∧
    (.disp ∈ ws ∨ t.disp = s.disp) ∧ (.mode ∈ ws ∨ t.mode = s.mode) ∧ (.waitReg ∈ ws ∨ t.waitReg = s.waitReg) ∧
    (.fault ∈ ws ∨ t.fault = s.fault) ∧ (.rndIndex ∈ ws ∨ t.rndIndex = s.rndIndex) ∧
    (.schedule ∈ ws ∨ t.schedule = s.schedule) := by
  constructor
  · intro h
    have g : ∀ it : Item, it ∈ ws ∨ it.same s t := fun it => (Classical.em _).imp_right (h it)
    exact ⟨g .mem, g .v, g .i, g .pc, g .stack, g .sp, g .dt, g .st, g .key, g .disp, g .mode, g .waitReg, g .fault,
      g .rndIndex, g .schedule⟩
  · rintro ⟨h1, h2, h3, h4, h5, h6, h7, h8, h9, h10, h11, h12, h13, h14, h15⟩ it hit
    cases it
    · exact h1.resolve_left hit
    · exact h2.resolve_left hit
    · exact h3.resolve_left hit
    · exact h4.resolve_left hit
    · exact h5.resolve_left hit
    · exact h6.resolve_left hit
    · exact h7.resolve_left hit
    · exact h8.resolve_left hit
    · exact h9.resolve_left hit
    · exact h10.resolve_left hit
    · exact h11.resolve_left hit
    · exact h12.resolve_left hit
    · exact h13.resolve_left hit
    · exact h14.resolve_left hit
    · exact h15.resolve_left hit

theorem Frame.refl (ws : List Item) (s : State) : Frame ws s s := by
  rw [frame_iff]
  simp

theorem Frame.trans {ws : List Item} {s t u : State} (h : Frame ws s t) (h' : Frame ws t u) : Frame ws s u := by
  intro it hit
  have a := h it hit
  have b := h' it hit
  cases it
  case mem => exact fun x => (b x).trans (a x)
  case v => exact fun r => (b r).trans (a r)
  all_goals exact Eq.trans b a

theorem Frame.mono {ws ws' : List Item} {s t : State} (h : Frame ws s t) (hw : ∀ it ∈ ws, it ∈ ws') : Frame ws' s t :=
  fun it hit => h it fun hm => hit (hw it hm)

/-- A fault changes the fault record and nothing else. -/
theorem frame_raise (s : State) (f : FaultRecord) : Frame [.fault] s { s with fault := f } := by
  rw [frame_iff]
  simp [State.getV]

end Sys2Proof.Machine
end

