-- ==== Sys2Proof/Laws/Memory.lean ====
section
/-! SUPPORT. The laws of memory: a read after a write, the canonical form is kept, and equal memories are equal data. -/

namespace Sys2Proof.Machine

theorem Memory.read_nil (a : Nat) : Memory.read [] a = resetByte a := rfl

theorem Memory.read_cons (a : Nat) (x : Byte) (m : Memory) (b : Nat) (h : Memory.read m a = resetByte a) :
    Memory.read (Memory.cons a x m) b = if b = a then x else Memory.read m b := by
  unfold Memory.cons
  split
  · next e =>
    split
    · next h' => rw [h', h, e]
    · rfl
  · rfl

/-- No cell below `lo`: such an address reads as unlisted. -/
theorem Memory.read_of_lt (m : Memory) : ∀ lo, Memory.wfFrom lo m = true → ∀ a, a < lo → Memory.read m a = resetByte a := by
  induction m with
  | nil => intros; rfl
  | cons c m ih =>
    obtain ⟨b, w⟩ := c
    intro lo h a ha
    simp only [Memory.wfFrom, Bool.and_eq_true, decide_eq_true_eq] at h
    have hb : a ≠ b := by omega
    simp only [Memory.read, if_neg hb]
    exact ih (b + 1) h.2 a (by omega)

theorem Memory.wfFrom_mono (m : Memory) {lo lo' : Nat} (h : Memory.wfFrom lo m = true) (hl : lo' ≤ lo) :
    Memory.wfFrom lo' m = true := by
  cases m with
  | nil => rfl
  | cons c m =>
    obtain ⟨b, w⟩ := c
    simp only [Memory.wfFrom, Bool.and_eq_true, decide_eq_true_eq] at h ⊢
    exact ⟨⟨⟨by omega, h.1.1.2⟩, h.1.2⟩, h.2⟩

/-- In canonical form, an address listed nowhere in front reads as unlisted in the tail. -/
theorem Memory.tail_unlisted {lo b : Nat} {w : Byte} {m : Memory} (h : Memory.wfFrom lo ((b, w) :: m) = true) :
    Memory.read m b = resetByte b := by
  simp only [Memory.wfFrom, Bool.and_eq_true] at h
  exact Memory.read_of_lt m (b + 1) h.2 b (Nat.lt_succ_self b)

theorem Memory.read_write_from (m : Memory) : ∀ lo, Memory.wfFrom lo m = true → ∀ a x b,
    Memory.read (Memory.write m a x) b = if b = a then x else Memory.read m b := by
  induction m with
  | nil => intro lo _ a x b; exact Memory.read_cons a x [] b rfl
  | cons c m ih =>
    obtain ⟨b', w⟩ := c
    intro lo h a x b
    have ht := Memory.tail_unlisted h
    unfold Memory.write
    by_cases h1 : a < b'
    · rw [if_pos h1]
      refine Memory.read_cons a x _ b ?_
      have := Memory.wfFrom_mono _ (show Memory.wfFrom b' ((b', w) :: m) = true by
        simp only [Memory.wfFrom, Bool.and_eq_true, decide_eq_true_eq] at h ⊢
        exact ⟨⟨⟨by omega, h.1.1.2⟩, h.1.2⟩, h.2⟩) (Nat.le_refl _)
      exact Memory.read_of_lt _ b' this a h1
    · rw [if_neg h1]
      by_cases h2 : a = b'
      · subst h2
        rw [if_pos rfl, Memory.read_cons a x m b ht]
        by_cases h3 : b = a <;> simp [Memory.read, h3]
      · rw [if_neg h2]
        simp only [Memory.wfFrom, Bool.and_eq_true] at h
        simp only [Memory.read, ih (b' + 1) h.2 a x b]
        by_cases h3 : b = b'
        · have : b ≠ a := fun e => h2 (e ▸ h3)
          simp [h3, h3 ▸ this]
        · simp [h3]

/-- The read of a byte after a write of one. -/
theorem Memory.read_write {m : Memory} (h : Memory.wf m = true) (a : Nat) (x : Byte) (b : Nat) :
    Memory.read (Memory.write m a x) b = if b = a then x else Memory.read m b :=
  Memory.read_write_from m 0 h a x b

theorem Memory.wfFrom_cons {a : Nat} {x : Byte} {m : Memory} {lo : Nat} (hl : lo ≤ a) (ha : a < Config.memSize)
    (h : Memory.wfFrom (a + 1) m = true) : Memory.wfFrom lo (Memory.cons a x m) = true := by
  unfold Memory.cons
  split
  · exact Memory.wfFrom_mono m h (by omega)
  · next hx => simp [Memory.wfFrom, hl, ha, hx, h]

theorem Memory.wfFrom_write (m : Memory) : ∀ lo, Memory.wfFrom lo m = true → ∀ a x, lo ≤ a → a < Config.memSize →
    Memory.wfFrom lo (Memory.write m a x) = true := by
  induction m with
  | nil => intro lo _ a x hl ha; exact Memory.wfFrom_cons hl ha rfl
  | cons c m ih =>
    obtain ⟨b, w⟩ := c
    intro lo h a x hl ha
    simp only [Memory.wfFrom, Bool.and_eq_true, decide_eq_true_eq] at h
    unfold Memory.write
    by_cases h1 : a < b
    · rw [if_pos h1]
      refine Memory.wfFrom_cons hl ha ?_
      simp only [Memory.wfFrom, Bool.and_eq_true, decide_eq_true_eq]
      exact ⟨⟨⟨by omega, h.1.1.2⟩, h.1.2⟩, h.2⟩
    · rw [if_neg h1]
      by_cases h2 : a = b
      · rw [if_pos h2]
        exact Memory.wfFrom_cons hl ha (h2 ▸ h.2)
      · rw [if_neg h2]
        simp only [Memory.wfFrom, Bool.and_eq_true, decide_eq_true_eq]
        exact ⟨⟨⟨h.1.1.1, h.1.1.2⟩, h.1.2⟩, ih (b + 1) h.2 a x (by omega) ha⟩

/-- A write inside memory keeps the canonical form. -/
theorem Memory.wf_write {m : Memory} (h : Memory.wf m = true) {a : Nat} (ha : a < Config.memSize) (x : Byte) :
    Memory.wf (Memory.write m a x) = true :=
  Memory.wfFrom_write m 0 h a x (Nat.zero_le a) ha

/-- A block of writes inside memory keeps the canonical form. -/
theorem Memory.wf_writeBytes (xs : List Byte) : ∀ (m : Memory) (a : Nat), Memory.wf m = true →
    a + xs.length ≤ Config.memSize → Memory.wf (Memory.writeBytes m a xs) = true := by
  induction xs with
  | nil => intro m a h _; exact h
  | cons x xs ih =>
    intro m a h ha
    simp only [List.length_cons] at ha
    exact ih _ (a + 1) (Memory.wf_write h (by omega) x) (by omega)

/-- The read of a byte after a block of writes: the block's byte inside, the old byte outside. -/
theorem Memory.read_writeBytes (xs : List Byte) : ∀ (m : Memory) (a : Nat), Memory.wf m = true →
    a + xs.length ≤ Config.memSize → ∀ b, Memory.read (Memory.writeBytes m a xs) b =
      if h : a ≤ b ∧ b - a < xs.length then xs[b - a]'h.2 else Memory.read m b := by
  induction xs with
  | nil => intro m a _ _ b; simp [Memory.writeBytes]
  | cons x xs ih =>
    intro m a h ha b
    simp only [List.length_cons] at ha
    rw [Memory.writeBytes, ih _ (a + 1) (Memory.wf_write h (by omega) x) (by omega) b, Memory.read_write h]
    by_cases hb : a + 1 ≤ b ∧ b - (a + 1) < xs.length
    · have e : b - a = (b - (a + 1)) + 1 := by omega
      have h2 : a ≤ b ∧ b - a < (x :: xs).length := by simp only [List.length_cons]; omega
      rw [dif_pos hb, dif_pos h2]
      simp only [e, List.getElem_cons_succ]
    · rw [dif_neg hb]
      by_cases he : b = a
      · have h2 : a ≤ b ∧ b - a < (x :: xs).length := by simp only [List.length_cons]; omega
        rw [if_pos he, dif_pos h2]
        simp only [he, Nat.sub_self, List.getElem_cons_zero]
      · have h2 : ¬ (a ≤ b ∧ b - a < (x :: xs).length) := by simp only [List.length_cons]; omega
        rw [if_neg he, dif_neg h2]

@[simp] theorem Memory.length_readBytes (m : Memory) (n : Nat) : ∀ a, (Memory.readBytes m a n).length = n := by
  induction n with
  | zero => intro a; rfl
  | succ n ih => intro a; simp [Memory.readBytes, ih]

/-- The byte at place `j` of a block of reads. -/
theorem Memory.getElem_readBytes (m : Memory) (n : Nat) : ∀ (a j : Nat) (h : j < (Memory.readBytes m a n).length),
    (Memory.readBytes m a n)[j] = Memory.read m (a + j) := by
  induction n with
  | zero => intro a j h; simp [Memory.readBytes] at h
  | succ n ih =>
    intro a j h
    cases j with
    | zero => rfl
    | succ j =>
      simp only [Memory.readBytes, List.getElem_cons_succ]
      rw [ih]
      congr 1
      omega

theorem Memory.ext_from (m : Memory) : ∀ (m' : Memory) (lo : Nat), Memory.wfFrom lo m = true →
    Memory.wfFrom lo m' = true → (∀ a, Memory.read m a = Memory.read m' a) → m = m' := by
  induction m with
  | nil =>
    intro m' lo _ h' e
    cases m' with
    | nil => rfl
    | cons c m' =>
      obtain ⟨b, w⟩ := c
      simp only [Memory.wfFrom, Bool.and_eq_true, bne_iff_ne] at h'
      have := e b
      simp only [Memory.read, if_true] at this
      exact absurd this.symm h'.1.2
  | cons c m ih =>
    obtain ⟨b, w⟩ := c
    intro m' lo h h' e
    have h0 := h
    simp only [Memory.wfFrom, Bool.and_eq_true, bne_iff_ne, decide_eq_true_eq] at h
    cases m' with
    | nil =>
      have := e b
      simp only [Memory.read, if_true] at this
      exact absurd this h.1.2
    | cons c' m' =>
      obtain ⟨b', w'⟩ := c'
      have h0' := h'
      simp only [Memory.wfFrom, Bool.and_eq_true, bne_iff_ne, decide_eq_true_eq] at h'
      have hbb : b = b' := by
        rcases Nat.lt_trichotomy b b' with hlt | heq | hgt
        · have := e b
          simp only [Memory.read, if_true, if_neg (Nat.ne_of_lt hlt)] at this
          rw [Memory.read_of_lt m' (b' + 1) h'.2 b (by omega)] at this
          exact absurd this h.1.2
        · exact heq
        · have := e b'
          simp only [Memory.read, if_true, if_neg (Nat.ne_of_lt hgt)] at this
          rw [Memory.read_of_lt m (b + 1) h.2 b' (by omega)] at this
          exact absurd this.symm h'.1.2
      subst hbb
      have hw : w = w' := by simpa [Memory.read] using e b
      subst hw
      have : m = m' := by
        refine ih m' (b + 1) h.2 h'.2 fun a => ?_
        by_cases ha : a = b
        · rw [ha, Memory.tail_unlisted h0, Memory.tail_unlisted h0']
        · simpa [Memory.read, ha] using e a
      rw [this]

/-- Memories in canonical form that read alike are equal. -/
theorem Memory.eq_of_read {m m' : Memory} (h : Memory.wf m = true) (h' : Memory.wf m' = true)
    (e : ∀ a, Memory.read m a = Memory.read m' a) : m = m' :=
  Memory.ext_from m m' 0 h h' e

end Sys2Proof.Machine
end

