-- ==== Sys2Proof/Laws/PerInstr.lean ====
section
/-! SUPPORT. The round trip of the encoding, instruction by instruction (`30_encoding.md` R65, R66). -/

namespace Sys2Proof.Laws.RoundTrip

/-- The word of a well-formed instruction decodes to it, every operand at every value. -/
def Statement (i : Instr) : Prop := i.wf = true → decodeWord (encode i) = some i

theorem sys (nnn : BitVec 12) : Statement (.sys nnn) := by
  intro h
  simp only [Instr.wf, Bool.and_eq_true, bne_iff_ne] at h
  have hn := nnn.isLt
  have e1 : ¬ fmtNNN 0x0 nnn = 0x00E0#16 := fun e => h.1 (by
    apply BitVec.eq_of_toNat_eq
    have := congrArg BitVec.toNat e
    rw [toNat_fmtNNN] at this
    simp at this ⊢; omega)
  have e2 : ¬ fmtNNN 0x0 nnn = 0x00EE#16 := fun e => h.2 (by
    apply BitVec.eq_of_toNat_eq
    have := congrArg BitVec.toNat e
    rw [toNat_fmtNNN] at this
    simp at this ⊢; omega)
  simp only [decodeWord, encode, fieldOp_fmtNNN, decode0, fieldNNN_fmtNNN, if_neg e1, if_neg e2]
  rfl

theorem cls : Statement .cls := fun _ => by decide
theorem ret : Statement .ret := fun _ => by decide

section
variable (x y : Reg) (n : BitVec 4) (nn : Byte) (nnn : BitVec 12)

theorem jp : Statement (.jp nnn) := fun _ => by simp [decodeWord, encode, fieldOp_fmtNNN, fieldNNN_fmtNNN]
theorem call : Statement (.call nnn) := fun _ => by simp [decodeWord, encode, fieldOp_fmtNNN, fieldNNN_fmtNNN]
theorem ldI : Statement (.ldI nnn) := fun _ => by simp [decodeWord, encode, fieldOp_fmtNNN, fieldNNN_fmtNNN]
theorem jpV0 : Statement (.jpV0 nnn) := fun _ => by simp [decodeWord, encode, fieldOp_fmtNNN, fieldNNN_fmtNNN]

theorem seImm : Statement (.seImm x nn) := fun _ => by
  simp [decodeWord, encode, fieldOp_fmtXNN, fieldX_fmtXNN, fieldNN_fmtXNN]
theorem sneImm : Statement (.sneImm x nn) := fun _ => by
  simp [decodeWord, encode, fieldOp_fmtXNN, fieldX_fmtXNN, fieldNN_fmtXNN]
theorem ldImm : Statement (.ldImm x nn) := fun _ => by
  simp [decodeWord, encode, fieldOp_fmtXNN, fieldX_fmtXNN, fieldNN_fmtXNN]
theorem addImm : Statement (.addImm x nn) := fun _ => by
  simp [decodeWord, encode, fieldOp_fmtXNN, fieldX_fmtXNN, fieldNN_fmtXNN]
theorem rnd : Statement (.rnd x nn) := fun _ => by
  simp [decodeWord, encode, fieldOp_fmtXNN, fieldX_fmtXNN, fieldNN_fmtXNN]

theorem seReg : Statement (.seReg x y) := fun _ => by
  simp [decodeWord, encode, fieldOp_fmtXYN, fieldX_fmtXYN, fieldY_fmtXYN, fieldN_fmtXYN]
theorem sneReg : Statement (.sneReg x y) := fun _ => by
  simp [decodeWord, encode, fieldOp_fmtXYN, fieldX_fmtXYN, fieldY_fmtXYN, fieldN_fmtXYN]
theorem drw : Statement (.drw x y n) := fun _ => by
  simp [decodeWord, encode, fieldOp_fmtXYN, fieldX_fmtXYN, fieldY_fmtXYN, fieldN_fmtXYN]

theorem ldReg : Statement (.ldReg x y) := fun _ => by
  simp [decodeWord, decode8, encode, fieldOp_fmtXYN, fieldX_fmtXYN, fieldY_fmtXYN, fieldN_fmtXYN]
theorem orReg : Statement (.orReg x y) := fun _ => by
  simp [decodeWord, decode8, encode, fieldOp_fmtXYN, fieldX_fmtXYN, fieldY_fmtXYN, fieldN_fmtXYN]
theorem andReg : Statement (.andReg x y) := fun _ => by
  simp [decodeWord, decode8, encode, fieldOp_fmtXYN, fieldX_fmtXYN, fieldY_fmtXYN, fieldN_fmtXYN]
theorem xorReg : Statement (.xorReg x y) := fun _ => by
  simp [decodeWord, decode8, encode, fieldOp_fmtXYN, fieldX_fmtXYN, fieldY_fmtXYN, fieldN_fmtXYN]
theorem addReg : Statement (.addReg x y) := fun _ => by
  simp [decodeWord, decode8, encode, fieldOp_fmtXYN, fieldX_fmtXYN, fieldY_fmtXYN, fieldN_fmtXYN]
theorem subReg : Statement (.subReg x y) := fun _ => by
  simp [decodeWord, decode8, encode, fieldOp_fmtXYN, fieldX_fmtXYN, fieldY_fmtXYN, fieldN_fmtXYN]
theorem shr : Statement (.shr x y) := fun _ => by
  simp [decodeWord, decode8, encode, fieldOp_fmtXYN, fieldX_fmtXYN, fieldY_fmtXYN, fieldN_fmtXYN]
theorem subnReg : Statement (.subnReg x y) := fun _ => by
  simp [decodeWord, decode8, encode, fieldOp_fmtXYN, fieldX_fmtXYN, fieldY_fmtXYN, fieldN_fmtXYN]
theorem shl : Statement (.shl x y) := fun _ => by
  simp [decodeWord, decode8, encode, fieldOp_fmtXYN, fieldX_fmtXYN, fieldY_fmtXYN, fieldN_fmtXYN]

theorem skp : Statement (.skp x) := fun _ => by
  simp [decodeWord, decodeE, encode, fieldOp_fmtXNN, fieldX_fmtXNN, fieldNN_fmtXNN]
theorem sknp : Statement (.sknp x) := fun _ => by
  simp [decodeWord, decodeE, encode, fieldOp_fmtXNN, fieldX_fmtXNN, fieldNN_fmtXNN]

theorem ldVxDt : Statement (.ldVxDt x) := fun _ => by
  simp [decodeWord, decodeF, encode, fieldOp_fmtXNN, fieldX_fmtXNN, fieldNN_fmtXNN]
theorem ldVxK : Statement (.ldVxK x) := fun _ => by
  simp [decodeWord, decodeF, encode, fieldOp_fmtXNN, fieldX_fmtXNN, fieldNN_fmtXNN]
theorem ldDtVx : Statement (.ldDtVx x) := fun _ => by
  simp [decodeWord, decodeF, encode, fieldOp_fmtXNN, fieldX_fmtXNN, fieldNN_fmtXNN]
theorem ldStVx : Statement (.ldStVx x) := fun _ => by
  simp [decodeWord, decodeF, encode, fieldOp_fmtXNN, fieldX_fmtXNN, fieldNN_fmtXNN]
theorem addI : Statement (.addI x) := fun _ => by
  simp [decodeWord, decodeF, encode, fieldOp_fmtXNN, fieldX_fmtXNN, fieldNN_fmtXNN]
theorem ldF : Statement (.ldF x) := fun _ => by
  simp [decodeWord, decodeF, encode, fieldOp_fmtXNN, fieldX_fmtXNN, fieldNN_fmtXNN]
theorem ldB : Statement (.ldB x) := fun _ => by
  simp [decodeWord, decodeF, encode, fieldOp_fmtXNN, fieldX_fmtXNN, fieldNN_fmtXNN]
theorem ldMemVx : Statement (.ldMemVx x) := fun _ => by
  simp [decodeWord, decodeF, encode, fieldOp_fmtXNN, fieldX_fmtXNN, fieldNN_fmtXNN]
theorem ldVxMem : Statement (.ldVxMem x) := fun _ => by
  simp [decodeWord, decodeF, encode, fieldOp_fmtXNN, fieldX_fmtXNN, fieldNN_fmtXNN]

end

end Sys2Proof.Laws.RoundTrip
end

