-- ==== Sys2Proof/Tests/Slice0.lean ====
section
/-! SUPPORT. Tests and witnesses. Expected values come from the spec: the opcode map of `30_encoding.md` R66, the
vectors of `95_test_vectors.md` (named S.., T-..), the font table of `70_reset_and_hazards.md` R181. The witnesses show,
for each statement with premises, states and operands that meet them together, clause by clause. -/

set_option maxRecDepth 8000

namespace Sys2Proof.Tests

open Sys2Proof.Machine

/-! ## Well-formedness: the one check there is -/

theorem test_wf_refuses_sys_of_cls : (Instr.sys 0x0E0).wf = false := by decide
theorem test_wf_refuses_sys_of_ret : (Instr.sys 0x0EE).wf = false := by decide
theorem test_wf_sys_neighbours :
    (Instr.sys 0x0DF).wf ∧ (Instr.sys 0x0E1).wf ∧ (Instr.sys 0x0ED).wf ∧ (Instr.sys 0x0EF).wf := by decide

/-! ## Decoding: a word of R66 for every constructor, written out from its pattern -/

theorem test_decode_sys : decodeWord 0x0123 = some (.sys 0x123) := by decide
theorem test_decode_cls : decodeWord 0x00E0 = some .cls := by decide
theorem test_decode_ret : decodeWord 0x00EE = some .ret := by decide
theorem test_decode_jp : decodeWord 0x1ABC = some (.jp 0xABC) := by decide
theorem test_decode_call : decodeWord 0x220A = some (.call 0x20A) := by decide
theorem test_decode_seImm : decodeWord 0x3A7F = some (.seImm 10 0x7F) := by decide
theorem test_decode_sneImm : decodeWord 0x4311 = some (.sneImm 3 0x11) := by decide
theorem test_decode_seReg : decodeWord 0x5120 = some (.seReg 1 2) := by decide
theorem test_decode_ldImm : decodeWord 0x6A7F = some (.ldImm 10 0x7F) := by decide
theorem test_decode_addImm : decodeWord 0x73FF = some (.addImm 3 0xFF) := by decide
theorem test_decode_ldReg : decodeWord 0x8120 = some (.ldReg 1 2) := by decide
theorem test_decode_orReg : decodeWord 0x8121 = some (.orReg 1 2) := by decide
theorem test_decode_andReg : decodeWord 0x8122 = some (.andReg 1 2) := by decide
theorem test_decode_xorReg : decodeWord 0x8123 = some (.xorReg 1 2) := by decide
theorem test_decode_addReg : decodeWord 0x8124 = some (.addReg 1 2) := by decide
theorem test_decode_subReg : decodeWord 0x8125 = some (.subReg 1 2) := by decide
theorem test_decode_shr : decodeWord 0x8126 = some (.shr 1 2) := by decide
theorem test_decode_subnReg : decodeWord 0x8127 = some (.subnReg 1 2) := by decide
theorem test_decode_shl : decodeWord 0x812E = some (.shl 1 2) := by decide
theorem test_decode_sneReg : decodeWord 0x9120 = some (.sneReg 1 2) := by decide
theorem test_decode_ldI : decodeWord 0xA300 = some (.ldI 0x300) := by decide
theorem test_decode_jpV0 : decodeWord 0xBFFF = some (.jpV0 0xFFF) := by decide
theorem test_decode_rnd : decodeWord 0xC10F = some (.rnd 1 0x0F) := by decide
theorem test_decode_drw : decodeWord 0xD125 = some (.drw 1 2 5) := by decide
theorem test_decode_skp : decodeWord 0xE59E = some (.skp 5) := by decide
theorem test_decode_sknp : decodeWord 0xE5A1 = some (.sknp 5) := by decide
theorem test_decode_ldVxDt : decodeWord 0xFB07 = some (.ldVxDt 11) := by decide
theorem test_decode_ldVxK : decodeWord 0xF10A = some (.ldVxK 1) := by decide
theorem test_decode_ldDtVx : decodeWord 0xFA15 = some (.ldDtVx 10) := by decide
theorem test_decode_ldStVx : decodeWord 0xF418 = some (.ldStVx 4) := by decide
theorem test_decode_addI : decodeWord 0xF21E = some (.addI 2) := by decide
theorem test_decode_ldF : decodeWord 0xF029 = some (.ldF 0) := by decide
theorem test_decode_ldB : decodeWord 0xF033 = some (.ldB 0) := by decide
theorem test_decode_ldMemVx : decodeWord 0xFF55 = some (.ldMemVx 15) := by decide
theorem test_decode_ldVxMem : decodeWord 0xF265 = some (.ldVxMem 2) := by decide

/-- R67: words of the illegal table, one for each of its rows but the first. -/
theorem test_decode_none : decodeWord 0x5121 = none ∧ decodeWord 0x8128 = none ∧ decodeWord 0x912F = none ∧
    decodeWord 0xE59F = none ∧ decodeWord 0xF1FF = none := by decide

/-- The decoder on bytes: the byte at the lower address is the high one (R44), one byte is not enough (R60). -/
theorem test_decode_bytes : decode [0x60, 0x05, 0x61] = .ok (.ldImm 0 5, [0x61]) ∧
    decode [0x60] = .error .truncated ∧ decode [0x51, 0x21] = .error (.noRow 0x5121) := by
  refine ⟨?_, ?_, ?_⟩ <;> rfl

/-- The document's own words `6005` and `8014`, by their fields. -/
theorem test_encode : encode (.ldImm 0 5) = 0x6005 ∧ encode (.addReg 0 1) = 0x8014 ∧ encode (.shr 1 0) = 0x8106 := by
  decide

/-! ## One step -/

/-- The start state of the vectors: reset, then the word at 0x200. -/
def start (w : Nat) : State := State.reset.withFetchWord 16 w

/-- Registers preset. -/
def regs (s : State) (l : List (Reg × Byte)) : State := l.foldl (fun s p => s.setV p.1 p.2) s

/-- Memory preset. -/
def bytes (s : State) (a : Nat) (l : List Byte) : State := { s with mem := Memory.writeBytes s.mem a l }

/-- Pixels preset. -/
def pixels (s : State) (l : List (Fin 64 × Fin 32)) : State :=
  { s with disp := l.foldl (fun d p => Display.setPixel d p.1 p.2 true) s.disp }

/-- The set pixels are exactly the listed ones (the list has no repeats). -/
def shows (t : State) (l : List (Fin 64 × Fin 32)) : Bool :=
  (t.disp.toList.map fun row => row.toList.count true).sum == l.length && l.all fun p => Display.pixel t.disp p.1 p.2

/-- The move of the agents `es`, oldest first, ends in a state that `p` holds of. -/
def after (es : List AgentEvent) (s : State) (p : State → Bool) : Bool :=
  match deliverAll es s with
  | .next t => p t
  | .fault _ => false
  | .refused _ => false

/-- One step of the machine ends in a state that `p` holds of. -/
def sees (s : State) (p : State → Bool) : Bool :=
  match step s with
  | .next t => p t
  | .fault _ => false
  | .refused _ => false

/-- PC is `a` and there is no fault. -/
def goesTo (a : Word) (t : State) : Bool := t.pc == a && !t.fault.faulted

/-! ### Control transfer -/

/-- T-F9 -/
theorem test_sys : sees (start 0x0123) (fun t => t.fault == ⟨true, .invalidOpcode, 0x0123, 0x200⟩ && t.pc == 0x200) := by
  decide
/-- T-F1 -/
theorem test_jp : sees (start 0x1204) (goesTo 0x204) := by decide
/-- T-F3 -/
theorem test_call : sees (start 0x220A) (fun t => goesTo 0x20A t && t.stack[0] == 0x202 && t.sp == 1) := by decide
/-- T-F5, step 13 -/
theorem test_call_overflow : sees { start 0x2234 with sp := 12 } (fun t =>
    t.fault == ⟨true, .stackOverflow, 0x2234, 0x200⟩ && t.pc == 0x200 && t.sp == 12) := by decide
/-- T-F4 -/
theorem test_ret : sees { start 0x00EE with sp := 1, stack := State.reset.stack.set 0 0x0333 } (fun t =>
    goesTo 0x333 t && t.sp == 0 && t.stack[0] == 0x333) := by decide
/-- T-F6 -/
theorem test_ret_underflow : sees (start 0x00EE) (fun t =>
    t.fault == ⟨true, .stackUnderflow, 0x00EE, 0x200⟩ && t.pc == 0x200) := by decide
/-- T-F7 -/
theorem test_jpV0 : sees (regs (start 0xB300) [(0, 0x04), (3, 0x40)]) (goesTo 0x304) := by decide
/-- T-F8 -/
theorem test_jpV0_beyond : sees (regs (start 0xBFFF) [(0, 0xFF)]) (goesTo 0x10FE) := by decide

/-! ### Skips -/

/-- T-S1 -/
theorem test_seImm_taken : sees (start 0x3000) (goesTo 0x204) := by decide
/-- T-S2 -/
theorem test_seImm_not : sees (regs (start 0x3000) [(0, 1)]) (goesTo 0x202) := by decide
/-- T-S3 -/
theorem test_sneImm_taken : sees (regs (start 0x4311) [(3, 0x10)]) (goesTo 0x204) := by decide
/-- T-S4 -/
theorem test_sneImm_not : sees (regs (start 0x4310) [(3, 0x10)]) (goesTo 0x202) := by decide
/-- T-S5 -/
theorem test_seReg_taken : sees (regs (start 0x5120) [(1, 0x7F), (2, 0x7F)]) (goesTo 0x204) := by decide
/-- T-S6 -/
theorem test_seReg_not : sees (regs (start 0x5120) [(1, 1), (2, 2)]) (goesTo 0x202) := by decide
/-- T-S9 -/
theorem test_sneReg_taken : sees (regs (start 0x9120) [(1, 1), (2, 2)]) (goesTo 0x204) := by decide
/-- T-S10 -/
theorem test_sneReg_not : sees (start 0x9110) (goesTo 0x202) := by decide
/-- T-S14: the low nibble selects the key. -/
theorem test_skp_taken : sees { regs (start 0xE59E) [(5, 0x17)] with key := 0x0080 } (goesTo 0x204) := by decide
/-- T-S13 -/
theorem test_skp_not : sees (regs (start 0xE59E) [(5, 7)]) (goesTo 0x202) := by decide
/-- T-S16 -/
theorem test_sknp_taken : sees (regs (start 0xE5A1) [(5, 7)]) (goesTo 0x204) := by decide
/-- T-S15 -/
theorem test_sknp_not : sees { regs (start 0xE5A1) [(5, 7)] with key := 0x0080 } (goesTo 0x202) := by decide

/-! ### Registers, arithmetic, logic -/

/-- T-A1 -/
theorem test_ldImm : sees (start 0x6A7F) (fun t => goesTo 0x202 t && t.getV 10 == 0x7F && t.getV 9 == 0) := by decide
/-- T-A3 -/
theorem test_addImm_wraps : sees (regs (start 0x7302) [(3, 0xFF)]) (fun t => t.getV 3 == 1 && t.getV vf == 0) := by decide
/-- T-A5 -/
theorem test_ldReg : sees (regs (start 0x8120) [(2, 0x55)]) (fun t => t.getV 1 == 0x55 && t.getV 2 == 0x55) := by decide
/-- T-A6 -/
theorem test_orReg : sees (regs (start 0x8121) [(1, 0xF0), (2, 0x0F), (vf, 1)]) (fun t =>
    t.getV 1 == 0xFF && t.getV vf == 1) := by decide
/-- T-A7 -/
theorem test_andReg : sees (regs (start 0x8122) [(1, 0xF0), (2, 0x3C)]) (fun t => t.getV 1 == 0x30) := by decide
/-- T-A8 -/
theorem test_xorReg : sees (regs (start 0x8123) [(1, 0xF0), (2, 0x3C)]) (fun t => t.getV 1 == 0xCC) := by decide
/-- T-A10, S5 -/
theorem test_addReg_carry : sees (regs (start 0x8124) [(1, 0xFF), (2, 1)]) (fun t =>
    t.getV 1 == 0 && t.getV vf == 1) := by decide
/-- T-A14: the flag wins in VF. -/
theorem test_addReg_into_vf : sees (regs (start 0x8F14) [(vf, 5), (1, 3)]) (fun t =>
    t.getV vf == 0 && t.getV 1 == 3) := by decide
/-- T-A17 -/
theorem test_subReg_borrow : sees (regs (start 0x8125) [(1, 3), (2, 5)]) (fun t =>
    t.getV 1 == 0xFE && t.getV vf == 0) := by decide
/-- T-A18 -/
theorem test_subReg_equal : sees (regs (start 0x8125) [(1, 7), (2, 7)]) (fun t =>
    t.getV 1 == 0 && t.getV vf == 1) := by decide
/-- T-A24: Y is ignored. -/
theorem test_shr : sees (regs (start 0x8126) [(1, 4), (2, 0xFF)]) (fun t =>
    t.getV 1 == 2 && t.getV vf == 0 && t.getV 2 == 0xFF) := by decide
/-- T-A25 -/
theorem test_shr_of_vf : sees (regs (start 0x8F06) [(vf, 3)]) (fun t => t.getV vf == 1) := by decide
/-- T-A21 -/
theorem test_subnReg : sees (regs (start 0x8127) [(1, 3), (2, 5)]) (fun t =>
    t.getV 1 == 2 && t.getV vf == 1) := by decide
/-- T-A22 -/
theorem test_subnReg_borrow : sees (regs (start 0x8127) [(1, 5), (2, 3)]) (fun t =>
    t.getV 1 == 0xFE && t.getV vf == 0) := by decide
/-- T-A27 -/
theorem test_shl : sees (regs (start 0x810E) [(1, 0x81)]) (fun t => t.getV 1 == 2 && t.getV vf == 1) := by decide
/-- T-A30 -/
theorem test_shl_of_vf : sees (regs (start 0x8FFE) [(vf, 0x7F)]) (fun t => t.getV vf == 0) := by decide

/-- Masking with 0 gives 0 for every byte. -/
theorem and_zero_byte (b : Byte) : b &&& 0#8 = 0#8 := by simp

/-- T-A33: whatever byte is drawn. -/
theorem test_rnd_masked : ∃ t, exec (.rnd 1 0x00) (start 0xC100) = .next t ∧ t.getV 1 = 0 ∧ t.rndIndex = 1 :=
  ⟨_, rfl, and_zero_byte _, rfl⟩

/-! ### Index register and memory -/

/-- T-M1 -/
theorem test_ldI : sees (start 0xA300) (fun t => goesTo 0x202 t && t.i == 0x300) := by decide
/-- T-M3 -/
theorem test_addI_past_memory : sees { regs (start 0xF21E) [(2, 1)] with i := 0x0FFF } (fun t =>
    goesTo 0x202 t && t.i == 0x1000 && t.getV vf == 0) := by decide
/-- T-M4 -/
theorem test_addI_wraps : sees { regs (start 0xF21E) [(2, 2)] with i := 0xFFFF } (fun t => t.i == 1) := by decide
/-- T-M6 -/
theorem test_ldF : sees (regs (start 0xF029) [(0, 0x1A)]) (fun t => t.i == 0x32) := by decide
/-- T-M12 -/
theorem test_ldB : sees { regs (start 0xF033) [(0, 0x7B)] with i := 0xFFD } (fun t =>
    goesTo 0x202 t && Memory.readBytes t.mem 0xFFC 4 == [0, 1, 2, 3]) := by decide
/-- T-M13 -/
theorem test_ldB_beyond : sees { regs (start 0xF033) [(0, 0x7B)] with i := 0xFFE } (fun t =>
    t.fault == ⟨true, .outOfBounds, 0xF033, 0x200⟩ && t.pc == 0x200 && Memory.readBytes t.mem 0xFFE 2 == [0, 0]) := by
  decide
/-- T-M14 -/
theorem test_ldMemVx : sees { regs (start 0xF155) [(0, 0x11), (1, 0x22), (2, 0x33)] with i := 0x300 } (fun t =>
    goesTo 0x202 t && Memory.readBytes t.mem 0x300 3 == [0x11, 0x22, 0] && t.i == 0x300) := by decide
/-- T-M17 -/
theorem test_ldMemVx_beyond : sees { regs (start 0xFF55) [(0, 1)] with i := 0xFF1 } (fun t =>
    t.fault == ⟨true, .outOfBounds, 0xFF55, 0x200⟩ && Memory.read t.mem 0xFF1 == 0) := by decide
/-- T-M18 -/
theorem test_ldVxMem : sees { regs (bytes (start 0xF265) 0x300 [1, 5, 7, 9]) [(3, 0xEE)] with i := 0x300 } (fun t =>
    t.getVs 0 4 == [1, 5, 7, 0xEE] && t.i == 0x300) := by decide
/-- T-M20: the font is ordinary memory. -/
theorem test_ldVxMem_font : sees (start 0xF465) (fun t => t.getVs 0 6 == [0xF0, 0x90, 0x90, 0x90, 0xF0, 0]) := by decide

/-! ### Display -/

/-- T-D1 -/
theorem test_cls : sees (pixels (regs (start 0x00E0) [(vf, 9)]) [(5, 5), (63, 31)]) (fun t =>
    goesTo 0x202 t && shows t [] && t.getV vf == 9) := by decide
/-- T-D4: both axes wrap, pixel by pixel. -/
theorem test_drw_wraps :
    sees { regs (bytes (start 0xD012) 0x300 [0xFF, 0x81]) [(0, 0x3E), (1, 0x1F)] with i := 0x300 } (fun t =>
      shows t [(62, 31), (63, 31), (0, 31), (1, 31), (2, 31), (3, 31), (4, 31), (5, 31),
        (62, 0), (5, 0)] && t.getV vf == 0) := by decide
/-- T-D6: a collision is a pixel that goes from set to unset. -/
theorem test_drw_collides :
    sees { pixels (bytes (start 0xD001) 0x301 [0x60]) [(0, 0), (1, 0)] with i := 0x301 } (fun t =>
      shows t [(0, 0), (2, 0)] && t.getV vf == 1) := by decide
/-- T-D10 -/
theorem test_drw_beyond : sees { regs (bytes (start 0xD002) 0xFFF [0x80]) [(vf, 7)] with i := 0xFFF } (fun t =>
    t.fault == ⟨true, .outOfBounds, 0xD002, 0x200⟩ && shows t [] && t.getV vf == 7) := by decide
/-- T-D8: no row, no check. -/
theorem test_drw_empty : sees { regs (start 0xD010) [(vf, 1)] with i := 0xFFF } (fun t =>
    goesTo 0x202 t && shows t [] && t.getV vf == 0) := by decide
/-- T-D12: a drawing of nothing still pulses `display_dirty`; a load does not. -/
theorem test_display_dirty : { bytes (start 0xD001) 0x300 [0x00] with i := 0x300 }.displayDirty = true ∧
    (start 0x6A7F).displayDirty = false := by decide

/-! ### Timers and keys -/

/-- T-K1 -/
theorem test_ldDtVx : sees (regs (start 0xFA15) [(10, 3)]) (fun t => goesTo 0x202 t && t.dt == 3 && t.st == 0) := by decide
/-- T-K1 -/
theorem test_ldVxDt : sees { start 0xFB07 with dt := 2 } (fun t => t.getV 11 == 2 && t.dt == 2) := by decide
/-- T-K2 -/
theorem test_ldStVx : sees (regs (start 0xF418) [(4, 2)]) (fun t => t.st == 2 && t.dt == 0 && t.soundOn) := by decide
/-- T-K4: the entering step does not sample. -/
theorem test_ldVxK : sees { start 0xF20A with key := 0x0008 } (fun t =>
    t.mode == .waitingForKey && t.waitReg == 2 && t.pc == 0x200 && t.getV 2 == 0 && t.status == .waiting) := by decide
/-- T-K5: the lowest pressed key. -/
theorem test_key_wait_ends : sees { start 0xF20A with mode := .waitingForKey, waitReg := 2, key := 0x0210 } (fun t =>
    goesTo 0x202 t && t.getV 2 == 4 && t.mode == .running && t.key == 0x0210) := by decide
/-- S7 -/
theorem test_tick : after [.tick, .tick] { State.reset with dt := 1, st := 5 } (fun t => t.dt == 0 && t.st == 3) := by
  decide

/-! ### Fetch, faults, reset, load -/

/-- T-F10: the empty memory after reset. -/
theorem test_reset_then_step : sees State.reset (fun t => t.fault == ⟨true, .invalidOpcode, 0x0000, 0x200⟩) := by decide
/-- T-X2: byte 0xFFF exists, byte 0x1000 does not. -/
theorem test_fetch_beyond : sees { State.reset with pc := 0xFFF } (fun t =>
    t.fault == ⟨true, .outOfBounds, 0, 0xFFF⟩ && t.pc == 0xFFF) := by decide
/-- T-X1: the last word of memory. -/
theorem test_fetch_last : sees { bytes State.reset 0xFFE [0x60, 0x05] with pc := 0xFFE } (fun t =>
    goesTo 0x1000 t && t.getV 0 == 5) := by decide
/-- T-X3: no alignment rule. -/
theorem test_fetch_odd : sees { bytes State.reset 0x200 [0x12, 0x60, 0x07, 0x00] with pc := 0x201 } (fun t =>
    goesTo 0x203 t && t.getV 0 == 7) := by decide
/-- T-X4: after a fault a step and a tick change nothing, a key change does (R153). -/
theorem test_faulted :
    after [.step, .tick, .step, .keyIn 3] { start 0x00EE with dt := 9 } (fun t =>
      t.dt == 9 && t.pc == 0x200 && t.key == 3 && t.status == .fault) := by decide
/-- T-X5 -/
theorem test_reset_clears_fault : after [.step, .reset] (regs (start 0x00EE) [(1, 1)]) (fun t => t == State.reset) := by
  decide
/-- A load: image byte k to address 0x200 + k. -/
theorem test_load : after [.resetLoad [0x60, 0x05], .step] { State.reset with pc := 0x333 } (fun t =>
    goesTo 0x202 t && t.getV 0 == 5) := by decide
/-- T-X8, first clause and its neighbours. -/
theorem test_font : Memory.readBytes State.reset.mem 0 6 = [0xF0, 0x90, 0x90, 0x90, 0xF0, 0x20] ∧
    Memory.readBytes State.reset.mem 0x4B 6 = [0xF0, 0x80, 0xF0, 0x80, 0x80, 0x00] := by decide
/-- The schedule's moves come before the core's own. -/
theorem test_schedule : sees { start 0x6A7F with schedule := [.tick, .step], dt := 4 } (fun t =>
    t.pc == 0x200 && t.dt == 3 && t.schedule == [.step]) := by decide
/-- The memory of a written and restored byte is the memory before. -/
theorem test_memory_canonical : (bytes (bytes State.reset 0x4F [7]) 0x4F [0x80]).mem = State.reset.mem := by decide


/-! ## Witnesses: the premises of the statements can be met, each clause on its own -/

/-- The state after the one move of the machine. -/
def next (s : State) : State :=
  match step s with
  | .next t => t
  | .fault _ => s
  | .refused _ => s

theorem test_witness_DecodeOfEncode : (Instr.drw 15 0 15).wf = true ∧ (Instr.sys 0x0DF).wf = true := by decide

theorem test_witness_EncodeOfDecode : decodeWord 0x81F6 = some (.shr 1 15) ∧ decodeWord 0xFFFF = none := by decide

theorem test_witness_DecodeFollowsTheOpcodeMap :
    decodeWord 0x00E0 = some .cls ∧ (opcodeRow (.jp 1)).selects 0x1FFF = true ∧
    (opcodeRow (.jp 2)).selects 0x1FFF = true := by decide

theorem test_witness_IllegalWords : IllegalWord 0x00EF ∧ IllegalWord 0x5AB1 ∧ ¬ IllegalWord 0x00EE := by
  unfold IllegalWord; decide

/-- Both clauses, at the last address a fetch reaches. -/
theorem test_witness_StepRunsTheDecodedInstruction :
    ∃ s : State, s.ready ∧ s.pc.toNat + 1 < 4096 ∧ decodeWord (BitVec.ofNat 16
      ((Memory.read s.mem s.pc.toNat).toNat * 256 + (Memory.read s.mem (s.pc.toNat + 1)).toNat)) = some (.ldImm 0 5) ∧
      s.coreNext ∧ { s with schedule := [.step, .tick] }.schedule = .step :: [.tick] :=
  ⟨{ bytes State.reset 0xFFE [0x60, 0x05] with pc := 0xFFE }, by decide⟩

theorem test_witness_FetchBeyondMemoryFaults :
    ∃ s : State, s.coreNext ∧ s.ready ∧ 4096 ≤ s.pc.toNat + 1 := ⟨{ State.reset with pc := 0xFFF }, by decide⟩

theorem test_witness_IllegalWordFaults :
    (∃ s : State, s.coreNext ∧ s.ready ∧ s.fetch = some 0x5121 ∧ IllegalWord 0x5121) ∧
    (∃ s : State, s.coreNext ∧ s.ready ∧ s.fetch = some 0x5120 ∧ ¬ IllegalWord 0x5120 ∧ s.fault = .clear) :=
  ⟨⟨start 0x5121, by unfold IllegalWord; decide⟩, ⟨start 0x5120, by unfold IllegalWord; decide⟩⟩

theorem test_witness_ScheduledMovesHappenInOrder : State.reset.schedule = [] := rfl

theorem test_witness_ResetAndLoadFromEveryState :
    (List.replicate 3584 (7 : Byte)).length ≤ 3584 ∧ 3584 < (List.replicate 3585 (7 : Byte)).length :=
  ⟨Nat.le_of_eq List.length_replicate, Nat.lt_of_lt_of_eq (Nat.lt_succ_self 3584) List.length_replicate.symm⟩

theorem test_witness_MovesKeepMemoryCanonical : ∃ s t : State, s.memWf ∧ step s = .next t :=
  ⟨{ start 0xF155 with i := 0xFFE }, _, by decide, rfl⟩

/-- A waiting state, and what its step leaves. -/
theorem test_witness_MovesKeepTheWaitRegisterTrue :
    ∃ s t : State, s.mode = .waitingForKey ∧ s.waitMatchesMemory ∧ step s = .next t :=
  ⟨{ start 0xF20A with mode := .waitingForKey, waitReg := 2 }, _, rfl, fun _ => by decide, rfl⟩

/-- The record of every cause, at the boundary of its condition. -/
theorem test_witness_MovesKeepTheFaultRecordTrue :
    State.reset.faultExplained ∧
    (next { State.reset with pc := 0xFFF }).faultExplained ∧
    (next { start 0xD002 with i := 0xFFF }).faultExplained ∧
    (next { start 0xF033 with i := 0xFFE }).faultExplained ∧
    (next { start 0xFF55 with i := 0xFF1 }).faultExplained ∧
    (next { start 0xF065 with i := 0x1000 }).faultExplained ∧
    (next { start 0x2234 with sp := 12 }).faultExplained ∧
    (next (start 0x00EE)).faultExplained ∧
    (next (start 0x0000)).faultExplained ∧
    (next { State.reset with schedule := [.resetLoad (List.replicate 3585 0)] }).faultExplained := by
  refine ⟨rfl, ⟨rfl, rfl, .inl (by decide)⟩, ⟨rfl, rfl, .inr ⟨by decide, .inl ⟨0, 0, 2, by decide⟩⟩⟩,
    ⟨rfl, rfl, .inr ⟨by decide, .inr (.inl ⟨0, by decide⟩)⟩⟩,
    ⟨rfl, rfl, .inr ⟨by decide, .inr (.inr ⟨15, by decide⟩)⟩⟩,
    ⟨rfl, rfl, .inr ⟨by decide, .inr (.inr ⟨0, by decide⟩)⟩⟩,
    ⟨rfl, rfl, by decide, ⟨0x234, by decide⟩, by decide⟩, ⟨rfl, rfl, by decide, by decide, by decide⟩,
    ⟨rfl, rfl, by decide, .inl (by decide)⟩, ?_⟩
  have h : next { State.reset with schedule := [.resetLoad (List.replicate 3585 0)] } =
      { State.reset with fault := ⟨true, .romTooLarge, 0, 0x200⟩ } := by
    simp only [next, step, nextMove, deliver, loadEvent, List.length_replicate]
    rfl
  rw [h]
  exact ⟨rfl, rfl, rfl, rfl⟩

/-- At the largest PC a jump gives. -/
theorem test_witness_MovesKeepPcBounded :
    ∃ s t : State, s.waitMatchesMemory ∧ s.pcBounded ∧ s.pc = 0x10FE ∧ step s = .next t :=
  ⟨{ State.reset with pc := 0x10FE }, _, fun h => (nomatch h), ⟨by decide, by decide⟩, rfl, rfl⟩

theorem test_witness_FaultsArePrecise :
    ∃ s t : State, s.coreNext ∧ s.noFault ∧ step s = .next t ∧ t.fault.faulted = true :=
  ⟨start 0x00EE, _, rfl, rfl, rfl, by decide⟩

theorem test_witness_AFaultedMachineStandsStill :
    ∃ (es : List AgentEvent) (s t : State), (∀ e ∈ es, e.keepsSession = true) ∧ s.fault.faulted = true ∧
      deliverAll es s = .next t ∧ t.key ≠ s.key :=
  ⟨[.step, .tick, .keyIn 3], next (start 0x00EE), _, by decide, by decide, rfl, by decide⟩

/-! ### Control transfer -/

theorem test_witness_CallPushesTheReturnAddress :
    { State.reset with sp := 11 }.sp.val < 12 ∧ { State.reset with sp := 12 }.sp.val = 12 := by decide

theorem test_witness_ReturnPopsTheReturnAddress :
    { State.reset with sp := 1 }.sp.val = (0 : Fin 12).val + 1 ∧
    { State.reset with sp := 12 }.sp.val = (11 : Fin 12).val + 1 ∧ State.reset.sp.val = 0 := by decide

theorem test_witness_CallThenReturnComesBack : { State.reset with sp := 11 }.sp.val < 12 := by decide

theorem test_witness_TwelveCallsFillTheStack :
    State.reset.sp.val = 0 ∧ State.reset.fault = .clear ∧ (List.replicate 12 (0x204 : BitVec 12)).length ≤ 12 ∧
    (List.replicate 13 (0x204 : BitVec 12)).length = 13 := by decide

/-! ### Skips -/

theorem test_witness_ImmediateSkips : State.reset.getV 15 = 0x00 ∧ State.reset.getV 15 ≠ 0xFF := by decide

theorem test_witness_RegisterSkips :
    State.reset.getV 0 = State.reset.getV 15 ∧ (regs State.reset [(15, 1)]).getV 0 ≠ (regs State.reset [(15, 1)]).getV 15 := by
  decide

theorem test_witness_KeySkips :
    { regs State.reset [(0, 0xFF)] with key := 0x8000 }.key.getLsbD (0xFF % 16) = true ∧
    (regs State.reset [(0, 0xFF)]).getV 0 = 0xFF ∧ (regs State.reset [(0, 0xFF)]).key.getLsbD (0xFF % 16) = false := by
  decide

/-! ### Registers -/

/-- The one premise of the sums, the differences and the shifts. -/
theorem test_witness_destination_is_not_vf : (14 : Reg) ≠ vf ∧ (0 : Reg) ≠ vf := by decide

theorem test_witness_RandomDrawsOneByte :
    ∃ (i : Instr) (s t : State), (∀ x nn, i ≠ .rnd x nn) ∧ exec i s = .next t :=
  ⟨.cls, State.reset, _, fun _ _ h => (nomatch h), rfl⟩

theorem test_witness_OnlyDestinationRegistersChange :
    ∃ s t : State, exec (.ldVxMem 14) s = .next t ∧ t.getV 4 ≠ s.getV 4 := ⟨State.reset, _, rfl, by decide⟩

theorem test_witness_InstructionsWriteOnlyTheirItems :
    ∃ s t : State, exec (.ldMemVx 15) s = .next t ∧ Memory.read t.mem 0 ≠ Memory.read s.mem 0 :=
  ⟨State.reset, _, rfl, by decide⟩

/-! ### Memory -/

theorem test_witness_BcdStoresThreeDigits :
    { State.reset with i := 0xFFD }.memWf ∧ { State.reset with i := 0xFFD }.i.toNat + 2 < 4096 ∧
    4096 ≤ { State.reset with i := 0xFFE }.i.toNat + 2 := by decide

/-- For the block transfers, at both ends of X. -/
theorem test_witness_block_transfers :
    { State.reset with i := 0xFF0 }.memWf ∧ { State.reset with i := 0xFF0 }.i.toNat + (15 : Reg).val < 4096 ∧
    { State.reset with i := 0xFFF }.i.toNat + (0 : Reg).val < 4096 ∧
    4096 ≤ { State.reset with i := 0xFF1 }.i.toNat + (15 : Reg).val ∧
    4096 ≤ { State.reset with i := 0x1000 }.i.toNat + (0 : Reg).val := by decide

/-- In between, every register is lost and only memory and I are kept. -/
theorem test_witness_StoreThenLoadGivesTheRegistersBack :
    ∃ s t t' : State, s.memWf ∧ s.i.toNat + (15 : Reg).val < 4096 ∧ exec (.ldMemVx 15) s = .next t ∧ t'.mem = t.mem ∧
      t'.i = t.i ∧ t'.getV 7 ≠ s.getV 7 :=
  ⟨{ regs State.reset [(7, 1)] with i := 0x300 }, _,
    { State.reset with i := 0x300, mem := (next { regs (start 0xFF55) [(7, 1)] with i := 0x300 }).mem.drop 2 },
    by decide, by decide, rfl, by decide, rfl, by decide⟩

theorem test_witness_AStoreIsSeenByTheNextFetch :
    ∃ s : State, s.memWf ∧ s.about (.ldMemVx 1) ∧ 1 ≤ (1 : Reg).val ∧ s.i = s.pc + 2 ∧ s.i.toNat + (1 : Reg).val < 4096 :=
  ⟨{ start 0xF155 with i := 0x202 }, by decide⟩

/-! ### Display -/

theorem test_witness_ClsClearsTheDisplay :
    (start 0x00E0).noFault ∧ (start 0x00E0).mode = .running ∧ (start 0x00E0).fetch = some 0x00E0 := by decide

/-- The three cases of the check: no row, the last byte of memory, one byte beyond. -/
theorem test_witness_DrawInvertsTheCoveredPixels :
    ((0 : BitVec 4) = 0 ∧ ¬ { State.reset with i := 0xFFFF }.i.toNat < 4096) ∧
    { State.reset with i := 0xFF1 }.i.toNat + (15 : BitVec 4).toNat - 1 < 4096 ∧
    ((15 : BitVec 4) ≠ 0 ∧ 4096 ≤ { State.reset with i := 0xFF2 }.i.toNat + (15 : BitVec 4).toNat - 1) := by decide

/-- Both cases of the flag: a covered pixel that is set, and none. -/
theorem test_witness_draw_flag :
    (∃ s : State, ∃ px py, s.spriteCovers 0 0 1 px py ∧ s.pixelSet px py) ∧
    (∃ s : State, ¬ ∃ px py, s.spriteCovers 0 0 1 px py ∧ s.pixelSet px py) := by
  refine ⟨⟨pixels State.reset [(0, 0)], 0, 0, ⟨0, 0, by decide, by decide, by decide, by decide, by decide⟩, by decide⟩,
    ⟨{ State.reset with i := 0x300 }, ?_⟩⟩
  rintro ⟨px, py, ⟨c, r, hc, hr, -, -, h⟩, -⟩
  obtain rfl : r = 0 := by simpa using hr
  have h0 : ∀ c < 8, (Memory.read State.reset.mem 0x300).getLsbD (7 - c) = false := by decide
  exact Bool.false_ne_true ((h0 c hc).symm.trans h)

/-- The second draw with other registers that hold the same coordinates. -/
theorem test_witness_DrawingTwiceRestoresTheDisplay :
    ∃ s t : State, s.i.toNat + (5 : BitVec 4).toNat - 1 < 4096 ∧ exec (.drw 0 1 5) s = .next t ∧
      t.getV 2 = s.getV 0 ∧ t.getV 3 = s.getV 1 :=
  ⟨regs State.reset [(0, 62), (1, 30), (2, 62), (3, 30)], _, by decide, rfl, by decide, by decide⟩

theorem test_witness_DisplayDirtyTellsEveryChange :
    (∃ s t : State, s.coreNext ∧ step s = .next t ∧ s.displayDirty = true) ∧
    (∃ s t : State, s.coreNext ∧ step s = .next t ∧ s.displayDirty = false) :=
  ⟨⟨start 0x00E0, _, rfl, rfl, by decide⟩, ⟨{ start 0xD002 with i := 0xFFF }, _, rfl, rfl, by decide⟩⟩

/-! ### Timers and keys -/

theorem test_witness_TicksDecrementTheTimers : State.reset.noFault := by decide

theorem test_witness_TimersAreReadAndWrittenOnlyAsSaid :
    ∃ (i : Instr) (s t : State), (∀ x, i ≠ .ldVxDt x) ∧ exec i s = .next t ∧ t.dt ≠ s.dt :=
  ⟨.ldDtVx 1, regs State.reset [(1, 9)], _, fun _ h => (nomatch h), rfl, by decide⟩

theorem test_witness_KeyWaitIsEntered : (start 0xFF0A).noFault := by decide

/-- No key, and key 15 alone. -/
theorem test_witness_KeyWaitEndsOnTheLowestKey :
    ∃ s : State, s.coreNext ∧ s.noFault ∧ s.mode = .waitingForKey ∧ (∀ k < 16, s.key.getLsbD k = false) ∧
      { s with key := 0x8000 }.key.getLsbD 15 = true ∧ (∀ k < 15, { s with key := 0x8000 }.key.getLsbD k = false) :=
  ⟨{ start 0xF20A with mode := .waitingForKey, waitReg := 2 }, by decide⟩

/-- Into the wait, out of it, and a step that stays. -/
theorem test_witness_ModeChangesOnlyAsSaid :
    (∃ s t : State, s.coreNext ∧ step s = .next t ∧ s.mode = .running ∧ t.mode = .waitingForKey) ∧
    (∃ s t : State, s.coreNext ∧ s.noFault ∧ step s = .next t ∧ s.mode = .waitingForKey ∧ t.mode = .running) ∧
    (∃ s t : State, s.coreNext ∧ s.noFault ∧ step s = .next t ∧ s.mode = .waitingForKey ∧ t.mode = .waitingForKey) ∧
    (∃ s t : State, deliver .tick s = .next t) ∧ (∃ s t : State, deliver (.keyIn 1) s = .next t) :=
  ⟨⟨start 0xF20A, _, rfl, rfl, rfl, by decide⟩,
    ⟨{ start 0xF20A with mode := .waitingForKey, waitReg := 2, key := 1 }, _, rfl, rfl, rfl, rfl, by decide⟩,
    ⟨{ start 0xF20A with mode := .waitingForKey, waitReg := 2 }, _, rfl, rfl, rfl, rfl, by decide⟩,
    ⟨State.reset, _, rfl⟩, ⟨State.reset, _, rfl⟩⟩

theorem test_witness_KeysAreWrittenOutsideAndReadInThreePlaces :
    (∃ s t : State, s.coreNext ∧ step s = .next t) ∧
    (∃ (i : Instr) (s t : State), (∀ x, i ≠ .skp x) ∧ (∀ x, i ≠ .sknp x) ∧ exec i s = .next t) :=
  ⟨⟨State.reset, _, rfl, rfl⟩, ⟨.ldVxK 3, State.reset, _, fun _ h => (nomatch h), fun _ h => (nomatch h), rfl⟩⟩

/-- T-F2: `1200` at 0x200. -/
theorem test_witness_ASelfJumpIsTheEnd :
    ∃ (es : List AgentEvent) (s : State), (∀ e ∈ es, e.keepsSession = true) ∧ s.atSelfJump :=
  ⟨[.step, .tick, .keyIn 5, .step], start 0x1200, by decide, ⟨by decide, ⟨0x200, by decide, by decide⟩⟩⟩

end Sys2Proof.Tests
end

/-! The opcode map of `30_encoding.md` R66 against the decoder. A row's mask keeps whole fields of the word, so the row
selects a word exactly when those fields are the ones of its match column. The decoder branches on the same fields, and
the row of the decoded instruction is the one row that selects the word (R65). -/

namespace Sys2Proof

/-! ## A row's mask keeps whole fields -/

section
variable (w : Word)

theorem regBits_zero : regBits 0 = 0#4 := rfl

theorem and_maskOp : w &&& 0xF000 = fmtNNN (fieldOp w) 0 :=
  calc w &&& 0xF000
    _ = fmtNNN (fieldOp w) (fieldNNN w) &&& fmtNNN (BitVec.allOnes 4) 0 := by rw [fmtNNN_fields]; rfl
    _ = fmtNNN (fieldOp w) 0 := by
      simp_rw [fmtNNN]
      rw [BitVec.and_append, BitVec.and_allOnes]
      exact congrArg _ BitVec.and_zero

theorem and_maskOpNN : w &&& 0xF0FF = fmtXNN (fieldOp w) 0 (fieldNN w) :=
  calc w &&& 0xF0FF
    _ = fmtXNN (fieldOp w) (fieldX w) (fieldNN w) &&& fmtXNN (BitVec.allOnes 4) 0 (BitVec.allOnes 8) := by
      rw [fmtXNN_fields]; rfl
    _ = fmtXNN (fieldOp w) 0 (fieldNN w) := by
      simp_rw [fmtXNN]
      rw [BitVec.and_append, BitVec.and_append, BitVec.and_allOnes, BitVec.and_allOnes, regBits_zero, BitVec.and_zero]

theorem and_maskOpN : w &&& 0xF00F = fmtXYN (fieldOp w) 0 0 (fieldN w) :=
  calc w &&& 0xF00F
    _ = fmtXYN (fieldOp w) (fieldX w) (fieldY w) (fieldN w) &&& fmtXYN (BitVec.allOnes 4) 0 0 (BitVec.allOnes 4) := by
      rw [fmtXYN_fields]; rfl
    _ = fmtXYN (fieldOp w) 0 0 (fieldN w) := by
      simp_rw [fmtXYN]
      rw [BitVec.and_append, BitVec.and_append, BitVec.and_append, BitVec.and_allOnes, BitVec.and_allOnes, regBits_zero,
        BitVec.and_zero, BitVec.and_zero]

end

/-! ## When a row selects a word

One equivalence per mask of R66; `b` is the match column, which has no bit outside the mask. -/

section
variable {w b : Word} {es : List Word}

theorem selects_iff {m : Word} : OpcodeRow.selects ⟨m, b, es⟩ w = true ↔ w &&& m = b ∧ w ∉ es := by
  simp [OpcodeRow.selects]

theorem selects_maskWord_iff : OpcodeRow.selects ⟨0xFFFF, b, []⟩ w = true ↔ w = b := by
  rw [selects_iff, show (0xFFFF : Word) = BitVec.allOnes 16 from rfl, BitVec.and_allOnes]
  simp

theorem selects_maskOp_iff (hb : b &&& 0xF000 = b) :
    OpcodeRow.selects ⟨0xF000, b, es⟩ w = true ↔ fieldOp w = fieldOp b ∧ w ∉ es := by
  rw [selects_iff, ← hb, and_maskOp, and_maskOp, fieldOp_fmtNNN]
  refine and_congr_left fun _ => ⟨fun h => ?_, fun h => by rw [h]⟩
  simpa only [fieldOp_fmtNNN] using congrArg fieldOp h

theorem selects_maskOpNN_iff (hb : b &&& 0xF0FF = b) :
    OpcodeRow.selects ⟨0xF0FF, b, []⟩ w = true ↔ fieldOp w = fieldOp b ∧ fieldNN w = fieldNN b := by
  rw [selects_iff, ← hb, and_maskOpNN, and_maskOpNN, fieldOp_fmtXNN, fieldNN_fmtXNN]
  refine ⟨fun ⟨h, _⟩ => ⟨?_, ?_⟩, fun ⟨ho, hn⟩ => ⟨by rw [ho, hn], List.not_mem_nil⟩⟩
  · simpa only [fieldOp_fmtXNN] using congrArg fieldOp h
  · simpa only [fieldNN_fmtXNN] using congrArg fieldNN h

theorem selects_maskOpN_iff (hb : b &&& 0xF00F = b) :
    OpcodeRow.selects ⟨0xF00F, b, []⟩ w = true ↔ fieldOp w = fieldOp b ∧ fieldN w = fieldN b := by
  rw [selects_iff, ← hb, and_maskOpN, and_maskOpN, fieldOp_fmtXYN, fieldN_fmtXYN]
  refine ⟨fun ⟨h, _⟩ => ⟨?_, ?_⟩, fun ⟨ho, hn⟩ => ⟨by rw [ho, hn], List.not_mem_nil⟩⟩
  · simpa only [fieldOp_fmtXYN] using congrArg fieldOp h
  · simpa only [fieldN_fmtXYN] using congrArg fieldN h

end

/-! ## The row of the decoded instruction selects the word -/

section
variable {w : Word} {i : Instr}

theorem selects_of_decode0 (hop : fieldOp w = 0x0) : (opcodeRow (decode0 w)).selects w = true := by
  unfold decode0
  split
  next hcls => exact selects_maskWord_iff.2 hcls
  next hcls =>
    split
    next hret => exact selects_maskWord_iff.2 hret
    next hret => exact (selects_maskOp_iff rfl).2 ⟨hop, by simp [hcls, hret]⟩

theorem selects_of_decode8 (hop : fieldOp w = 0x8) (h : decode8 w = some i) : (opcodeRow i).selects w = true := by
  unfold decode8 at h
  split at h
  case h_10 => cases h
  all_goals
    obtain rfl := Option.some.inj h
    exact (selects_maskOpN_iff rfl).2 ⟨hop, BitVec.eq_of_toNat_eq ‹_›⟩

theorem selects_of_decodeE (hop : fieldOp w = 0xE) (h : decodeE w = some i) : (opcodeRow i).selects w = true := by
  unfold decodeE at h
  split at h
  case h_3 => cases h
  all_goals
    obtain rfl := Option.some.inj h
    exact (selects_maskOpNN_iff rfl).2 ⟨hop, BitVec.eq_of_toNat_eq ‹_›⟩

theorem selects_of_decodeF (hop : fieldOp w = 0xF) (h : decodeF w = some i) : (opcodeRow i).selects w = true := by
  unfold decodeF at h
  split at h
  case h_10 => cases h
  all_goals
    obtain rfl := Option.some.inj h
    exact (selects_maskOpNN_iff rfl).2 ⟨hop, BitVec.eq_of_toNat_eq ‹_›⟩

theorem selects_of_decodeWord (h : decodeWord w = some i) : (opcodeRow i).selects w = true := by
  unfold decodeWord at h
  split at h
  case h_1 hop =>
    obtain rfl := Option.some.inj h
    exact selects_of_decode0 (BitVec.eq_of_toNat_eq hop)
  case h_6 hop | h_10 hop =>
    obtain ⟨hn, h⟩ := Option.ite_none_right_eq_some.1 h
    obtain rfl := Option.some.inj h
    exact (selects_maskOpN_iff rfl).2 ⟨BitVec.eq_of_toNat_eq hop, hn⟩
  case h_9 hop => exact selects_of_decode8 (BitVec.eq_of_toNat_eq hop) h
  case h_15 hop => exact selects_of_decodeE (BitVec.eq_of_toNat_eq hop) h
  case h_16 =>
    have hop : (fieldOp w).toNat = 15 := by grind [(fieldOp w).isLt]
    exact selects_of_decodeF (BitVec.eq_of_toNat_eq hop) h
  all_goals -- the categories with one instruction each
    obtain rfl := Option.some.inj h
    exact (selects_maskOp_iff rfl).2 ⟨BitVec.eq_of_toNat_eq ‹_›, List.not_mem_nil⟩

end

/-! ## A word that a row selects decodes to an instruction of that row -/

theorem map_opcodeRow_decodeWord_of_selects {w : Word} {i : Instr} (h : (opcodeRow i).selects w = true) :
    (decodeWord w).map opcodeRow = some (opcodeRow i) := by
  cases i with
  | sys =>
    obtain ⟨hop, hw⟩ := (selects_maskOp_iff rfl).1 h
    obtain ⟨hcls, hret⟩ : w ≠ 0x00E0#16 ∧ w ≠ 0x00EE#16 := by simpa using hw
    have hdec : decode0 w = .sys (fieldNNN w) := by rw [decode0, if_neg hcls, if_neg hret]
    unfold decodeWord
    rw [hop, hdec]; rfl
  | cls | ret => rw [selects_maskWord_iff.1 h]; rfl
  | jp | call | seImm | sneImm | ldImm | addImm | ldI | jpV0 | rnd | drw =>
    obtain ⟨hop, -⟩ := (selects_maskOp_iff rfl).1 h
    unfold decodeWord
    rw [hop]; rfl
  | seReg | sneReg =>
    obtain ⟨hop, hn⟩ := (selects_maskOpN_iff rfl).1 h
    unfold decodeWord
    rw [hop, hn]; rfl
  | ldReg | orReg | andReg | xorReg | addReg | subReg | shr | subnReg | shl =>
    obtain ⟨hop, hn⟩ := (selects_maskOpN_iff rfl).1 h
    unfold decodeWord decode8
    rw [hop, hn]; rfl
  | skp | sknp =>
    obtain ⟨hop, hnn⟩ := (selects_maskOpNN_iff rfl).1 h
    unfold decodeWord decodeE
    rw [hop, hnn]; rfl
  | ldVxDt | ldVxK | ldDtVx | ldStVx | addI | ldF | ldB | ldMemVx | ldVxMem =>
    obtain ⟨hop, hnn⟩ := (selects_maskOpNN_iff rfl).1 h
    unfold decodeWord decodeF
    rw [hop, hnn]; rfl

/-- Settles O4: "the row of the decoded instruction" is a function of the word, so two rows that select it are equal. -/
theorem decodeFollowsTheOpcodeMap : Obligations.DecodeFollowsTheOpcodeMap := by
  intro w
  refine ⟨fun i => selects_of_decodeWord, fun i j hi hj => ?_, fun hnone i => ?_, fun hrows => ?_⟩
  · have hi' := map_opcodeRow_decodeWord_of_selects hi
    have hj' := map_opcodeRow_decodeWord_of_selects hj
    exact Option.some.inj (hi'.symm.trans hj')
  · refine Bool.eq_false_of_not_eq_true fun hsel => ?_
    simpa [hnone] using map_opcodeRow_decodeWord_of_selects hsel
  · refine Option.eq_none_iff_forall_ne_some.2 fun i hi => ?_
    simpa [hrows i] using selects_of_decodeWord hi

end Sys2Proof

/-! The register load and the addition with carry of `42_alu.md` (R100, R106), from one rule per state operation: what a
write of a register, the write of VF as flag and the move to `A + 2` leave as they were. -/

namespace Sys2Proof.Machine

/-! ## What the register writes and the move of PC keep -/

section
variable {ws : List Item} {rs : List Reg} {s t : State} {x : Reg} {b : Byte} {f : Bool}

theorem frame_setV (hv : .v ∈ ws) : Frame ws s (s.setV x b) := by
  rw [frame_iff]
  simp [hv]

theorem frame_setVThenFlag (hv : .v ∈ ws) : Frame ws s (s.setVThenFlag x b f) :=
  (frame_setV hv).trans (frame_setV hv)

theorem Frame.advance (h : Frame ws s t) (hpc : .pc ∈ ws) : Frame ws s t.advance := by
  refine h.trans ?_
  rw [frame_iff]
  simp [hpc]

theorem regsKept_setV : RegsKept [x] s (s.setV x b) := by
  intro r hr
  exact State.getV_setV_ne _ _ _ _ (List.ne_of_not_mem_cons hr)

theorem regsKept_setVThenFlag : RegsKept [x, vf] s (s.setVThenFlag x b f) := by
  intro r hr
  obtain ⟨hx, hvf⟩ : r ≠ x ∧ r ≠ vf := by simpa using hr
  rw [State.getV_setVThenFlag, if_neg hvf, if_neg hx]

theorem RegsKept.advance (h : RegsKept rs s t) : RegsKept rs s t.advance := h

/-! ## The result and the flag (`10_state.md` R13) -/

theorem getV_vf_setVThenFlag : (s.setVThenFlag x b f).getV vf = flagByte f := by
  rw [State.getV_setVThenFlag, if_pos rfl]

theorem getV_setVThenFlag_of_ne_vf (hx : x ≠ vf) : (s.setVThenFlag x b f).getV x = b := by
  rw [State.getV_setVThenFlag, if_neg hx, if_pos rfl]

theorem toNat_flagByte : (flagByte f).toNat = if f then 1 else 0 := by
  cases f <;> rfl

end

/-! ## The instructions -/

/-- Settles O32: the flag is written last, from the operands before the step, so it wins when X = 15. -/
theorem addSetsCarry : Obligations.AddSetsCarry := by
  intro x y s
  refine ⟨Laws.RoundTrip.addReg x y rfl, _, rfl, ?carry, fun hx => ?sum, State.advance_pc _,
    regsKept_setVThenFlag.advance, (frame_setVThenFlag (by decide)).advance (by decide)⟩
  case carry =>
    rw [State.advance_getV, getV_vf_setVThenFlag, toNat_flagByte]
    simp only [carry, decide_eq_true_eq, ge_iff_le]
  case sum => rw [State.advance_getV, getV_setVThenFlag_of_ne_vf hx, BitVec.toNat_add]

/-- Settles O29: X is the one register written, and nothing writes VF after it, so X = 15 is no exception. -/
theorem loadImmediate : Obligations.LoadImmediate := by
  intro x nn s
  refine ⟨Laws.RoundTrip.ldImm x nn rfl, _, rfl, ?value, State.advance_pc _, regsKept_setV.advance,
    (frame_setV (by decide)).advance (by decide)⟩
  case value => rw [State.advance_getV, State.getV_setV_self]

end Sys2Proof.Machine

/-! The clearing of the display (`44_display.md` R130) and the pulse of `display_dirty` (`60_exceptions.md` R162): a write
of the display leaves every other item as it was, the fault record included, so CLS completes from every state. -/

namespace Sys2Proof.Machine

section
variable {ws : List Item} {s t : State} {d : Display} {i : Instr}

theorem frame_setDisp (hd : .disp ∈ ws) : Frame ws s { s with disp := d } := by
  rw [frame_iff]
  simp [hd, State.getV]

theorem displayDirty_of_completes (hs : s.ready) (hi : s.fetch.bind decodeWord = some i)
    (hdraws : drawsDisplay i = true) (hexec : exec i s = .next t) (ht : t.noFault) : s.displayDirty = true := by
  obtain ⟨hfault, hmode⟩ := hs
  simp [State.displayDirty, hfault, hmode, hi, hdraws, hexec, ht]

end

theorem exec_cls (s : State) : exec .cls s = .next { s with disp := Display.clear }.advance := rfl

/-- Settles O44: the fault record is outside what CLS writes, so a step that runs it completes and pulses. -/
theorem clsClearsTheDisplay : Obligations.ClsClearsTheDisplay := by
  have hdecode : decodeWord 0x00E0 = some .cls := Laws.RoundTrip.cls rfl
  refine ⟨hdecode, fun s => ⟨_, exec_cls s, ?pixels, State.advance_pc _,
    (frame_setDisp (by decide)).advance (by decide)⟩, fun s hfault hmode hfetch => ?pulse⟩
  case pixels =>
    intro px py
    simp [State.pixelSet]
  case pulse =>
    have hi : s.fetch.bind decodeWord = some .cls := by rw [hfetch, Option.bind_some, hdecode]
    exact displayDirty_of_completes ⟨hfault, hmode⟩ hi rfl (exec_cls s) hfault

end Sys2Proof.Machine

/-! The round trip of the encoding in both directions (`30_encoding.md` R65, R66) and the table of illegal words (R67).
A word is built of its fields, so a word whose fixed fields are those of a format is that format of its other fields. -/

namespace Sys2Proof

/-! ## Encoding, then decoding -/

/-- Settles O2: one lemma of `Laws.RoundTrip` per row of the map. -/
theorem decodeOfEncode : Obligations.DecodeOfEncode := by
  intro i
  cases i with
  | sys nnn => exact Laws.RoundTrip.sys nnn
  | cls => exact Laws.RoundTrip.cls
  | ret => exact Laws.RoundTrip.ret
  | jp nnn => exact Laws.RoundTrip.jp nnn
  | call nnn => exact Laws.RoundTrip.call nnn
  | seImm x nn => exact Laws.RoundTrip.seImm x nn
  | sneImm x nn => exact Laws.RoundTrip.sneImm x nn
  | seReg x y => exact Laws.RoundTrip.seReg x y
  | ldImm x nn => exact Laws.RoundTrip.ldImm x nn
  | addImm x nn => exact Laws.RoundTrip.addImm x nn
  | ldReg x y => exact Laws.RoundTrip.ldReg x y
  | orReg x y => exact Laws.RoundTrip.orReg x y
  | andReg x y => exact Laws.RoundTrip.andReg x y
  | xorReg x y => exact Laws.RoundTrip.xorReg x y
  | addReg x y => exact Laws.RoundTrip.addReg x y
  | subReg x y => exact Laws.RoundTrip.subReg x y
  | shr x y => exact Laws.RoundTrip.shr x y
  | subnReg x y => exact Laws.RoundTrip.subnReg x y
  | shl x y => exact Laws.RoundTrip.shl x y
  | sneReg x y => exact Laws.RoundTrip.sneReg x y
  | ldI nnn => exact Laws.RoundTrip.ldI nnn
  | jpV0 nnn => exact Laws.RoundTrip.jpV0 nnn
  | rnd x nn => exact Laws.RoundTrip.rnd x nn
  | drw x y n => exact Laws.RoundTrip.drw x y n
  | skp x => exact Laws.RoundTrip.skp x
  | sknp x => exact Laws.RoundTrip.sknp x
  | ldVxDt x => exact Laws.RoundTrip.ldVxDt x
  | ldVxK x => exact Laws.RoundTrip.ldVxK x
  | ldDtVx x => exact Laws.RoundTrip.ldDtVx x
  | ldStVx x => exact Laws.RoundTrip.ldStVx x
  | addI x => exact Laws.RoundTrip.addI x
  | ldF x => exact Laws.RoundTrip.ldF x
  | ldB x => exact Laws.RoundTrip.ldB x
  | ldMemVx x => exact Laws.RoundTrip.ldMemVx x
  | ldVxMem x => exact Laws.RoundTrip.ldVxMem x

/-! ## Decoding, then encoding -/

section
variable {w : Word} {i : Instr} {op n : BitVec 4} {nn : Byte}

theorem fmtNNN_eq_self (hop : fieldOp w = op) : fmtNNN op (fieldNNN w) = w := by
  rw [← hop, fmtNNN_fields]

theorem fmtXNN_eq_self (hop : fieldOp w = op) (hnn : fieldNN w = nn) : fmtXNN op (fieldX w) nn = w := by
  rw [← hop, ← hnn, fmtXNN_fields]

theorem fmtXYN_eq_self (hop : fieldOp w = op) (hn : fieldN w = n) : fmtXYN op (fieldX w) (fieldY w) n = w := by
  rw [← hop, ← hn, fmtXYN_fields]

theorem encode_decode0 (hop : fieldOp w = 0x0) : encode (decode0 w) = w ∧ (decode0 w).wf = true := by
  unfold decode0
  split
  next hcls => exact ⟨hcls.symm, rfl⟩
  next hcls =>
    split
    next hret => exact ⟨hret.symm, rfl⟩
    next hret =>
      have hw : fmtNNN 0x0 (fieldNNN w) = w := fmtNNN_eq_self hop
      refine ⟨hw, ?_⟩
      simp only [Instr.wf, Bool.and_eq_true, bne_iff_ne]
      exact ⟨fun e => hcls (by rw [← hw, e]; rfl), fun e => hret (by rw [← hw, e]; rfl)⟩

theorem encode_of_decode8 (hop : fieldOp w = 0x8) (h : decode8 w = some i) : encode i = w ∧ i.wf = true := by
  unfold decode8 at h
  split at h
  case h_10 => cases h
  all_goals
    obtain rfl := Option.some.inj h
    exact ⟨fmtXYN_eq_self hop (BitVec.eq_of_toNat_eq ‹_›), rfl⟩

theorem encode_of_decodeE (hop : fieldOp w = 0xE) (h : decodeE w = some i) : encode i = w ∧ i.wf = true := by
  unfold decodeE at h
  split at h
  case h_3 => cases h
  all_goals
    obtain rfl := Option.some.inj h
    exact ⟨fmtXNN_eq_self hop (BitVec.eq_of_toNat_eq ‹_›), rfl⟩

theorem encode_of_decodeF (hop : fieldOp w = 0xF) (h : decodeF w = some i) : encode i = w ∧ i.wf = true := by
  unfold decodeF at h
  split at h
  case h_10 => cases h
  all_goals
    obtain rfl := Option.some.inj h
    exact ⟨fmtXNN_eq_self hop (BitVec.eq_of_toNat_eq ‹_›), rfl⟩

theorem encode_of_decodeWord (h : decodeWord w = some i) : encode i = w ∧ i.wf = true := by
  unfold decodeWord at h
  split at h
  case h_1 hop =>
    obtain rfl := Option.some.inj h
    exact encode_decode0 (BitVec.eq_of_toNat_eq hop)
  case h_2 hop | h_3 hop | h_11 hop | h_12 hop =>
    obtain rfl := Option.some.inj h
    exact ⟨fmtNNN_eq_self (BitVec.eq_of_toNat_eq hop), rfl⟩
  case h_4 hop | h_5 hop | h_7 hop | h_8 hop | h_13 hop =>
    obtain rfl := Option.some.inj h
    exact ⟨fmtXNN_eq_self (BitVec.eq_of_toNat_eq hop) rfl, rfl⟩
  case h_6 hop | h_10 hop =>
    obtain ⟨hn, h⟩ := Option.ite_none_right_eq_some.1 h
    obtain rfl := Option.some.inj h
    exact ⟨fmtXYN_eq_self (BitVec.eq_of_toNat_eq hop) hn, rfl⟩
  case h_14 hop =>
    obtain rfl := Option.some.inj h
    exact ⟨fmtXYN_eq_self (BitVec.eq_of_toNat_eq hop) rfl, rfl⟩
  case h_9 hop => exact encode_of_decode8 (BitVec.eq_of_toNat_eq hop) h
  case h_15 hop => exact encode_of_decodeE (BitVec.eq_of_toNat_eq hop) h
  case h_16 =>
    have hop : (fieldOp w).toNat = 15 := by grind [(fieldOp w).isLt]
    exact encode_of_decodeF (BitVec.eq_of_toNat_eq hop) h

end

/-- Settles O3: a decoded instruction keeps every free field of its word, and its row fixes the others. -/
theorem encodeOfDecode : Obligations.EncodeOfDecode := fun _ _ => encode_of_decodeWord

/-- Settles O1, by evaluating the decoder on each word. -/
theorem wordsOfTheMapDecode : Obligations.WordsOfTheMapDecode := by
  unfold Obligations.WordsOfTheMapDecode
  decide

/-! ## The table of illegal words, row by row -/

section
variable {w : Word}

theorem decode8_eq_none_iff :
    decode8 w = none ↔ fieldN w ∈ [0x8#4, 0x9#4, 0xA#4, 0xB#4, 0xC#4, 0xD#4, 0xF#4] := by
  have hn := (fieldN w).isLt
  simp only [List.mem_cons, List.not_mem_nil, or_false, ← BitVec.toNat_inj, BitVec.toNat_ofNat]
  unfold decode8
  split
  case h_10 => grind
  all_goals simp [*]

theorem decodeE_eq_none_iff : decodeE w = none ↔ fieldNN w ∉ [0x9E#8, 0xA1#8] := by
  simp only [List.mem_cons, List.not_mem_nil, or_false, ← BitVec.toNat_inj, BitVec.toNat_ofNat]
  unfold decodeE
  split
  case h_3 => grind
  all_goals simp [*]

theorem decodeF_eq_none_iff : decodeF w = none ↔
    fieldNN w ∉ [0x07#8, 0x0A#8, 0x15#8, 0x18#8, 0x1E#8, 0x29#8, 0x33#8, 0x55#8, 0x65#8] := by
  simp only [List.mem_cons, List.not_mem_nil, or_false, ← BitVec.toNat_inj, BitVec.toNat_ofNat]
  unfold decodeF
  split
  case h_10 => grind
  all_goals simp [*]

/-- The first row of R67: the words whose instruction is SYS. -/
theorem decodeWord_eq_sys_iff :
    (∃ nnn, decodeWord w = some (.sys nnn)) ↔ fieldOp w = 0x0 ∧ w ≠ 0x00E0 ∧ w ≠ 0x00EE := by
  constructor
  · rintro ⟨nnn, h⟩
    obtain ⟨hw, -⟩ := encode_of_decodeWord h
    refine ⟨by rw [← hw]; exact fieldOp_fmtNNN 0x0 nnn, ?_, ?_⟩
    · rintro rfl; cases h
    · rintro rfl; cases h
  · rintro ⟨hop, hcls, hret⟩
    refine ⟨fieldNNN w, ?_⟩
    unfold decodeWord
    rw [hop]
    exact congrArg some ((if_neg hcls).trans (if_neg hret))

/-- The other rows of R67: the words that select no row of the map. -/
theorem decodeWord_eq_none_iff : decodeWord w = none ↔
    (fieldOp w = 0x5 ∧ fieldN w ≠ 0x0) ∨ (fieldOp w = 0x8 ∧ decode8 w = none) ∨
    (fieldOp w = 0x9 ∧ fieldN w ≠ 0x0) ∨ (fieldOp w = 0xE ∧ decodeE w = none) ∨
    (fieldOp w = 0xF ∧ decodeF w = none) := by
  have hop := (fieldOp w).isLt
  unfold decodeWord
  split
  case h_16 =>
    have hF : (fieldOp w).toNat = 15 := by grind
    simp [← BitVec.toNat_inj, hF]
  all_goals simp [← BitVec.toNat_inj, *]

end

/-- Settles O5: SYS has the first row of the table to itself, the words of the other rows select no instruction. -/
theorem illegalWordsAreThoseWithoutMeaning : Obligations.IllegalWordsAreThoseWithoutMeaning := by
  intro w
  rw [Machine.IllegalWord, ← decodeWord_eq_sys_iff, ← decode8_eq_none_iff, ← decodeE_eq_none_iff,
    ← decodeF_eq_none_iff, ← decodeWord_eq_none_iff]
  exact Or.comm

end Sys2Proof

/-! What each instruction writes and what it leaves (`10_state.md` R10 to R23). The six instructions that check a bound
have one equation per outcome; the others complete from every state. From them: every instruction answers a next state,
within the items and the registers its rule names. -/

namespace Sys2Proof.Machine

/-! ## One rule per write of an item -/

section
variable {ws : List Item} {s t : State} {x : Reg}

theorem Frame.skipIf {c : Bool} (h : Frame ws s t) (hpc : .pc ∈ ws) : Frame ws s (t.skipIf c) := by
  refine h.trans ?_
  rw [frame_iff]
  simp [hpc]

theorem Frame.jump {a : Word} (h : Frame ws s t) (hpc : .pc ∈ ws) : Frame ws s (t.jump a) := by
  refine h.trans ?_
  rw [frame_iff]
  simp [hpc]

theorem Frame.rndDrawn (h : Frame ws s t) (hr : .rndIndex ∈ ws) : Frame ws s t.rndDrawn := by
  refine h.trans ?_
  rw [frame_iff]
  simp [hr]

theorem frame_setI {a : Word} (hi : .i ∈ ws) : Frame ws s { s with i := a } := by
  rw [frame_iff]
  simp [hi, State.getV]

theorem frame_setMem {m : Memory} (hm : .mem ∈ ws) : Frame ws s { s with mem := m } := by
  rw [frame_iff]
  simp [hm, State.getV]

theorem frame_setDt {b : Byte} (hd : .dt ∈ ws) : Frame ws s { s with dt := b } := by
  rw [frame_iff]
  simp [hd, State.getV]

theorem frame_setSt {b : Byte} (hs : .st ∈ ws) : Frame ws s { s with st := b } := by
  rw [frame_iff]
  simp [hs, State.getV]

theorem frame_setSp {d : Fin (Config.stackDepth + 1)} (hd : .sp ∈ ws) : Frame ws s { s with sp := d } := by
  rw [frame_iff]
  simp [hd, State.getV]

theorem frame_setStackSp {st : Vector Word Config.stackDepth} {d : Fin (Config.stackDepth + 1)} (hs : .stack ∈ ws)
    (hd : .sp ∈ ws) : Frame ws s { s with stack := st, sp := d } := by
  rw [frame_iff]
  simp [hs, hd, State.getV]

theorem frame_wait (hr : .waitReg ∈ ws) (hm : .mode ∈ ws) :
    Frame ws s { s with waitReg := x, mode := .waitingForKey } := by
  rw [frame_iff]
  simp [hr, hm, State.getV]

theorem frame_setVs {k : Nat} {bs : List Byte} (hv : .v ∈ ws) : Frame ws s (s.setVs k bs) := by
  rw [State.setVs_eq, frame_iff]
  simp [hv]

end

/-! ## The outcomes of the instructions that check a bound (`60_exceptions.md` R150) -/

section
variable {s : State} {x y : Reg} {n : BitVec 4} {nnn : BitVec 12}

theorem exec_ret_of_pos (h : 0 < s.sp.val) : exec .ret s =
    .next (State.jump { s with sp := ⟨s.sp.val - 1, by have := s.sp.isLt; omega⟩ }
      (s.stack[s.sp.val - 1]'(by have := s.sp.isLt; omega))) := by
  simp only [exec, execRet, State.pop, dif_pos h]

theorem exec_ret_of_zero (h : s.sp.val = 0) : exec .ret s = raiseAt .stackUnderflow .ret s := by
  simp only [exec, execRet, State.pop, h, lt_irrefl, dite_false]

theorem exec_call_of_lt (h : s.sp.val < 12) : exec (.call nnn) s =
    .next (State.jump { s with stack := s.stack.set s.sp.val (s.pc + 2), sp := ⟨s.sp.val + 1, Nat.succ_lt_succ h⟩ }
      (zext16 nnn)) := by
  have h' : s.sp.val < Config.stackDepth := h
  simp only [exec, execCall, State.push, dif_pos h', State.nextPc_eq]

theorem exec_call_of_full (h : s.sp.val = 12) : exec (.call nnn) s = raiseAt .stackOverflow (.call nnn) s := by
  simp only [exec, execCall, State.push, h, lt_irrefl, dite_false]

theorem State.transferFits_sprite_iff :
    s.transferFits n.toNat = true ↔ n = 0 ∨ s.i.toNat + n.toNat - 1 < 4096 := by
  have hn : n = 0 ↔ n.toNat = 0 := BitVec.toNat_inj.symm
  rw [State.transferFits_iff, hn]
  omega

theorem exec_drw_of_fits (h : n = 0 ∨ s.i.toNat + n.toNat - 1 < 4096) : exec (.drw x y n) s =
    .next (State.setV { s with disp := (s.drawn x y n).disp } vf (flagByte (s.drawn x y n).hit)).advance :=
  if_pos (State.transferFits_sprite_iff.2 h)

theorem exec_drw_of_beyond (hn : n ≠ 0) (h : 4096 ≤ s.i.toNat + n.toNat - 1) :
    exec (.drw x y n) s = raiseAt .outOfBounds (.drw x y n) s :=
  if_neg (State.transferFits_sprite_iff.not.2 (not_or.2 ⟨hn, Nat.not_lt.2 h⟩))

theorem exec_ldB_of_fits (h : s.i.toNat + 2 < 4096) : exec (.ldB x) s =
    .next (State.advance { s with mem := Memory.writeBytes s.mem s.i.toNat (decimalDigits (s.getV x)) }) :=
  if_pos ((State.transferFits_iff s 3).2 (.inr h))

theorem exec_ldB_of_beyond (h : 4096 ≤ s.i.toNat + 2) : exec (.ldB x) s = raiseAt .outOfBounds (.ldB x) s := by
  refine if_neg ?_
  rw [State.transferFits_iff]
  omega

theorem exec_ldMemVx_of_fits (h : s.i.toNat + x.val < 4096) : exec (.ldMemVx x) s =
    .next (State.advance { s with mem := Memory.writeBytes s.mem s.i.toNat (s.getVs 0 (x.val + 1)) }) :=
  if_pos ((State.transferFits_iff s (x.val + 1)).2 (.inr h))

theorem exec_ldMemVx_of_beyond (h : 4096 ≤ s.i.toNat + x.val) :
    exec (.ldMemVx x) s = raiseAt .outOfBounds (.ldMemVx x) s := by
  refine if_neg ?_
  rw [State.transferFits_iff]
  omega

theorem exec_ldVxMem_of_fits (h : s.i.toNat + x.val < 4096) : exec (.ldVxMem x) s =
    .next (s.setVs 0 (Memory.readBytes s.mem s.i.toNat (x.val + 1))).advance :=
  if_pos ((State.transferFits_iff s (x.val + 1)).2 (.inr h))

theorem exec_ldVxMem_of_beyond (h : 4096 ≤ s.i.toNat + x.val) :
    exec (.ldVxMem x) s = raiseAt .outOfBounds (.ldVxMem x) s := by
  refine if_neg ?_
  rw [State.transferFits_iff]
  omega

theorem State.sp_full_or_lt (s : State) : s.sp.val = 12 ∨ s.sp.val < 12 := by
  have : s.sp.val < 12 + 1 := s.sp.isLt
  omega

theorem State.sprite_beyond_or_fits (s : State) (n : BitVec 4) :
    (n ≠ 0 ∧ 4096 ≤ s.i.toNat + n.toNat - 1) ∨ (n = 0 ∨ s.i.toNat + n.toNat - 1 < 4096) := by
  rw [← Nat.not_lt, ← not_or]
  exact (Classical.em _).symm

/-! ### The same read backwards: what such an instruction answers is one of the two outcomes -/

section
variable {t : State}

theorem exec_ret_cases (h : exec .ret s = .next t) :
    (s.sp.val = 0 ∧ t = { s with fault := ⟨true, .stackUnderflow, encode .ret, s.pc⟩ }) ∨
    ∃ hsp : 0 < s.sp.val, t = State.jump { s with sp := ⟨s.sp.val - 1, by have := s.sp.isLt; omega⟩ }
      (s.stack[s.sp.val - 1]'(by have := s.sp.isLt; omega)) := by
  rcases Nat.eq_zero_or_pos s.sp.val with hsp | hsp
  · cases (exec_ret_of_zero hsp).symm.trans h
    exact .inl ⟨hsp, rfl⟩
  · cases (exec_ret_of_pos hsp).symm.trans h
    exact .inr ⟨hsp, rfl⟩

theorem exec_call_cases (h : exec (.call nnn) s = .next t) :
    (s.sp.val = 12 ∧ t = { s with fault := ⟨true, .stackOverflow, encode (.call nnn), s.pc⟩ }) ∨
    ∃ hsp : s.sp.val < 12, t = State.jump { s with
      stack := s.stack.set s.sp.val (s.pc + 2)
      sp := ⟨s.sp.val + 1, Nat.succ_lt_succ hsp⟩ } (zext16 nnn) := by
  rcases s.sp_full_or_lt with hsp | hsp
  · cases (exec_call_of_full hsp).symm.trans h
    exact .inl ⟨hsp, rfl⟩
  · cases (exec_call_of_lt hsp).symm.trans h
    exact .inr ⟨hsp, rfl⟩

theorem exec_drw_cases (h : exec (.drw x y n) s = .next t) :
    (n ≠ 0 ∧ 4096 ≤ s.i.toNat + n.toNat - 1 ∧
      t = { s with fault := ⟨true, .outOfBounds, encode (.drw x y n), s.pc⟩ }) ∨
    ((n = 0 ∨ s.i.toNat + n.toNat - 1 < 4096) ∧
      t = (State.setV { s with disp := (s.drawn x y n).disp } vf (flagByte (s.drawn x y n).hit)).advance) := by
  rcases s.sprite_beyond_or_fits n with ⟨hn, hfit⟩ | hfit
  · cases (exec_drw_of_beyond hn hfit).symm.trans h
    exact .inl ⟨hn, hfit, rfl⟩
  · cases (exec_drw_of_fits hfit).symm.trans h
    exact .inr ⟨hfit, rfl⟩

theorem exec_ldB_cases (h : exec (.ldB x) s = .next t) :
    (4096 ≤ s.i.toNat + 2 ∧ t = { s with fault := ⟨true, .outOfBounds, encode (.ldB x), s.pc⟩ }) ∨
    (s.i.toNat + 2 < 4096 ∧
      t = State.advance { s with mem := Memory.writeBytes s.mem s.i.toNat (decimalDigits (s.getV x)) }) := by
  rcases le_or_gt 4096 (s.i.toNat + 2) with hfit | hfit
  · cases (exec_ldB_of_beyond hfit).symm.trans h
    exact .inl ⟨hfit, rfl⟩
  · cases (exec_ldB_of_fits hfit).symm.trans h
    exact .inr ⟨hfit, rfl⟩

theorem exec_ldMemVx_cases (h : exec (.ldMemVx x) s = .next t) :
    (4096 ≤ s.i.toNat + x.val ∧ t = { s with fault := ⟨true, .outOfBounds, encode (.ldMemVx x), s.pc⟩ }) ∨
    (s.i.toNat + x.val < 4096 ∧
      t = State.advance { s with mem := Memory.writeBytes s.mem s.i.toNat (s.getVs 0 (x.val + 1)) }) := by
  rcases le_or_gt 4096 (s.i.toNat + x.val) with hfit | hfit
  · cases (exec_ldMemVx_of_beyond hfit).symm.trans h
    exact .inl ⟨hfit, rfl⟩
  · cases (exec_ldMemVx_of_fits hfit).symm.trans h
    exact .inr ⟨hfit, rfl⟩

theorem exec_ldVxMem_cases (h : exec (.ldVxMem x) s = .next t) :
    (4096 ≤ s.i.toNat + x.val ∧ t = { s with fault := ⟨true, .outOfBounds, encode (.ldVxMem x), s.pc⟩ }) ∨
    (s.i.toNat + x.val < 4096 ∧
      t = (s.setVs 0 (Memory.readBytes s.mem s.i.toNat (x.val + 1))).advance) := by
  rcases le_or_gt 4096 (s.i.toNat + x.val) with hfit | hfit
  · cases (exec_ldVxMem_of_beyond hfit).symm.trans h
    exact .inl ⟨hfit, rfl⟩
  · cases (exec_ldVxMem_of_fits hfit).symm.trans h
    exact .inr ⟨hfit, rfl⟩

end

end

/-! ## Every instruction answers a next state -/

theorem exec_next (i : Instr) (s : State) : ∃ t, exec i s = .next t := by
  cases i with
  | ret => exact (Nat.eq_zero_or_pos s.sp.val).elim (⟨_, exec_ret_of_zero ·⟩) (⟨_, exec_ret_of_pos ·⟩)
  | call => exact s.sp_full_or_lt.elim (⟨_, exec_call_of_full ·⟩) (⟨_, exec_call_of_lt ·⟩)
  | drw _ _ n =>
    exact (s.sprite_beyond_or_fits n).elim (fun h => ⟨_, exec_drw_of_beyond h.1 h.2⟩) (⟨_, exec_drw_of_fits ·⟩)
  | ldB => exact (le_or_gt 4096 _).elim (⟨_, exec_ldB_of_beyond ·⟩) (⟨_, exec_ldB_of_fits ·⟩)
  | ldMemVx => exact (le_or_gt 4096 _).elim (⟨_, exec_ldMemVx_of_beyond ·⟩) (⟨_, exec_ldMemVx_of_fits ·⟩)
  | ldVxMem => exact (le_or_gt 4096 _).elim (⟨_, exec_ldVxMem_of_beyond ·⟩) (⟨_, exec_ldVxMem_of_fits ·⟩)
  | _ => exact ⟨_, rfl⟩

/-! ## Every instruction stays within the items and the registers its rule names -/

section
variable {i : Instr} {s t : State}

theorem exec_frame (h : exec i s = .next t) : Frame (itemsWritten i) s t := by
  cases i with
  | sys =>
    cases h
    exact frame_raise s _
  | cls =>
    cases h
    change Frame [.disp, .pc] s _
    exact (frame_setDisp (by decide)).advance (by decide)
  | ret =>
    change Frame [.sp, .pc, .fault] s t
    rcases exec_ret_cases h with ⟨-, rfl⟩ | ⟨-, rfl⟩
    · exact (frame_raise s _).mono (by decide)
    · exact (frame_setSp (by decide)).jump (by decide)
  | call =>
    change Frame [.stack, .sp, .pc, .fault] s t
    rcases exec_call_cases h with ⟨-, rfl⟩ | ⟨-, rfl⟩
    · exact (frame_raise s _).mono (by decide)
    · exact (frame_setStackSp (by decide) (by decide)).jump (by decide)
  | jp | jpV0 =>
    cases h
    change Frame [.pc] s _
    exact (Frame.refl _ s).jump (by decide)
  | seImm | sneImm | seReg | sneReg | skp | sknp =>
    cases h
    change Frame [.pc] s _
    exact (Frame.refl _ s).skipIf (by decide)
  | ldImm | addImm | ldReg | orReg | andReg | xorReg | ldVxDt =>
    cases h
    change Frame [.v, .pc] s _
    exact (frame_setV (by decide)).advance (by decide)
  | addReg | subReg | shr | subnReg | shl =>
    cases h
    change Frame [.v, .pc] s _
    exact (frame_setVThenFlag (by decide)).advance (by decide)
  | rnd =>
    cases h
    change Frame [.v, .rndIndex, .pc] s _
    exact ((frame_setV (by decide)).rndDrawn (by decide)).advance (by decide)
  | ldI | addI | ldF =>
    cases h
    change Frame [.i, .pc] s _
    exact (frame_setI (by decide)).advance (by decide)
  | drw =>
    change Frame [.disp, .v, .pc, .fault] s t
    rcases exec_drw_cases h with ⟨-, -, rfl⟩ | ⟨-, rfl⟩
    · exact (frame_raise s _).mono (by decide)
    · exact ((frame_setDisp (by decide)).trans (frame_setV (by decide))).advance (by decide)
  | ldVxK =>
    cases h
    change Frame [.mode, .waitReg] s _
    exact frame_wait (by decide) (by decide)
  | ldDtVx =>
    cases h
    change Frame [.dt, .pc] s _
    exact (frame_setDt (by decide)).advance (by decide)
  | ldStVx =>
    cases h
    change Frame [.st, .pc] s _
    exact (frame_setSt (by decide)).advance (by decide)
  | ldB =>
    change Frame [.mem, .pc, .fault] s t
    rcases exec_ldB_cases h with ⟨-, rfl⟩ | ⟨-, rfl⟩
    · exact (frame_raise s _).mono (by decide)
    · exact (frame_setMem (by decide)).advance (by decide)
  | ldMemVx =>
    change Frame [.mem, .pc, .fault] s t
    rcases exec_ldMemVx_cases h with ⟨-, rfl⟩ | ⟨-, rfl⟩
    · exact (frame_raise s _).mono (by decide)
    · exact (frame_setMem (by decide)).advance (by decide)
  | ldVxMem =>
    change Frame [.v, .pc, .fault] s t
    rcases exec_ldVxMem_cases h with ⟨-, rfl⟩ | ⟨-, rfl⟩
    · exact (frame_raise s _).mono (by decide)
    · exact (frame_setVs (by decide)).advance (by decide)

theorem exec_getV_eq (h : exec i s = .next t) (hi : .v ∉ itemsWritten i) (r : Reg) : t.getV r = s.getV r :=
  exec_frame h .v hi r

theorem regsKept_setVs {x : Reg} {bs : List Byte} (hbs : bs.length = x.val + 1) :
    RegsKept ((List.finRange 16).filter (· ≤ x)) s (s.setVs 0 bs) := by
  intro r hr
  have hlt : x.val < r.val := by simpa using hr
  rw [State.getV_setVs, dif_neg (by omega)]

theorem exec_regsKept (h : exec i s = .next t) : RegsKept (destRegs i) s t := by
  cases i with
  | ldImm | addImm | ldReg | orReg | andReg | xorReg | rnd | ldVxDt =>
    cases h
    exact regsKept_setV
  | addReg | subReg | shr | subnReg | shl =>
    cases h
    exact regsKept_setVThenFlag
  | drw =>
    rcases exec_drw_cases h with ⟨-, -, rfl⟩ | ⟨-, rfl⟩
    · exact fun _ _ => rfl
    · exact regsKept_setV (s := { s with disp := _ })
  | ldVxMem =>
    rcases exec_ldVxMem_cases h with ⟨-, rfl⟩ | ⟨-, rfl⟩
    · exact fun _ _ => rfl
    · exact (regsKept_setVs (Memory.length_readBytes _ _ _)).advance
  | _ => exact fun r _ => exec_getV_eq h (by simp [itemsWritten]) r

end

/-- Settles O36: the registers are an item, so most instructions keep them by their frame. -/
theorem onlyDestinationRegistersChange : Obligations.OnlyDestinationRegistersChange := fun _ _ _ => exec_regsKept

/-- Settles O37: each outcome of each instruction is a chain of the writes that have a frame rule. -/
theorem instructionsWriteOnlyTheirItems : Obligations.InstructionsWriteOnlyTheirItems := fun _ _ _ => exec_frame

end Sys2Proof.Machine

/-! Control transfer, the return stack and the skips (`40_flow.md`, `41_skip.md`, `10_state.md` R16, R17). -/

namespace Sys2Proof.Machine

/-! ## Jumps, and the fault that is the whole of SYS -/

/-- Settles O20. -/
theorem sysTakesInvalidOpcode : Obligations.SysTakesInvalidOpcode := fun _ s => ⟨_, rfl, rfl, frame_raise s _⟩

theorem toNat_zext16 {n : Nat} (hn : n ≤ 16) (v : BitVec n) : (zext16 v).toNat = v.toNat :=
  BitVec.toNat_setWidth_of_le hn

theorem toNat_zext16_add (nnn : BitVec 12) (b : Byte) : (zext16 nnn + zext16 b).toNat = nnn.toNat + b.toNat := by
  have hnnn := nnn.isLt
  have hb := b.isLt
  rw [BitVec.toNat_add, toNat_zext16 (by decide), toNat_zext16 (by decide)]
  omega

/-- Settles O21: the largest sum, 0xFFF + 0xFF, is below 65536, so BNNN does not reduce it. -/
theorem jumpsLoadPc : Obligations.JumpsLoadPc := by
  intro nnn s
  exact ⟨⟨_, rfl, toNat_zext16 (by decide) nnn, (Frame.refl _ s).jump (by decide)⟩,
    ⟨_, rfl, toNat_zext16_add nnn (s.getV 0), (Frame.refl _ s).jump (by decide)⟩⟩

/-! ## The return stack -/

/-- Settles O22. -/
theorem callPushesTheReturnAddress : Obligations.CallPushesTheReturnAddress := by
  intro nnn s
  refine ⟨fun hsp => ⟨_, exec_call_of_lt hsp, fun k => ?entry, rfl, toNat_zext16 (by decide) nnn,
    (frame_setStackSp (by decide) (by decide)).jump (by decide)⟩,
    fun hsp => ⟨_, exec_call_of_full hsp, rfl, frame_raise s _⟩⟩
  case entry =>
    rw [State.jump_stack, Vector.getElem_set]
    simp only [eq_comm]

/-- Settles O23: a pop reads the entry below SP and does not write the stack. -/
theorem returnPopsTheReturnAddress : Obligations.ReturnPopsTheReturnAddress := by
  intro s
  refine ⟨fun k hk => ?pops, fun hsp => ⟨_, exec_ret_of_zero hsp, rfl, frame_raise s _⟩⟩
  case pops =>
    have htop : s.sp.val - 1 = k.val := by omega
    refine ⟨_, exec_ret_of_pos (by omega), ?_, htop, (frame_setSp (by decide)).jump (by decide)⟩
    simp only [State.jump_pc, htop]

/-- Settles O24: the entry that RET pops is the one CALL has just pushed. -/
theorem callThenReturnComesBack : Obligations.CallThenReturnComesBack := by
  intro nnn s hsp
  obtain ⟨t, hcall, hstack, htsp, -, hframe⟩ := (callPushesTheReturnAddress nnn s).1 hsp
  obtain ⟨u, hret, hpc, husp, hframe'⟩ := (returnPopsTheReturnAddress t).1 ⟨s.sp.val, hsp⟩ htsp
  refine ⟨t, u, hcall, hret, ?_, Fin.ext husp, ?_⟩
  · rw [hpc, hstack ⟨s.sp.val, hsp⟩, if_pos rfl]
  · have hall := (hframe.mono (ws' := [.stack, .sp, .pc]) (by decide)).trans (hframe'.mono (by decide))
    intro it hit
    by_cases hsp' : it = .sp
    · subst hsp'
      exact Fin.ext husp
    · refine hall it ?_
      simp only [List.mem_cons, List.not_mem_nil, or_false] at hit ⊢
      tauto

/-- Calls from a state with room for all of them: one entry each, and no fault. -/
theorem execSeq_calls_of_le (targets : List (BitVec 12)) : ∀ s : State, s.noFault → s.sp.val + targets.length ≤ 12 →
    ∃ t, execSeq (targets.map .call) s = .next t ∧ t.sp.val = s.sp.val + targets.length ∧ t.noFault := by
  induction targets with
  | nil => exact fun s hs _ => ⟨s, rfl, rfl, hs⟩
  | cons nnn targets ih =>
    intro s hs hlen
    simp only [List.length_cons] at hlen
    obtain ⟨t, hcall, -, htsp, -, hframe⟩ := (callPushesTheReturnAddress nnn s).1 (by omega)
    have ht : t.noFault := (congrArg FaultRecord.faulted (hframe .fault (by decide))).trans hs
    obtain ⟨u, hseq, husp, hu⟩ := ih t ht (by omega)
    refine ⟨u, ?_, ?_, hu⟩
    · simp only [List.map_cons, execSeq, hcall, hseq]
    · simp only [List.length_cons]
      omega

theorem execSeq_append_next {is js : List Instr} {s t : State} (h : execSeq is s = .next t) :
    execSeq (is ++ js) s = execSeq js t := by
  induction is generalizing s with
  | nil => cases h; rfl
  | cons i is ih =>
    obtain ⟨s', hs'⟩ := exec_next i s
    simp only [execSeq, hs'] at h
    simp only [List.cons_append, execSeq, hs', ih h]

/-- Settles O25: twelve calls leave SP = 12, where the thirteenth takes its fault. -/
theorem twelveCallsFillTheStack : Obligations.TwelveCallsFillTheStack := by
  intro targets s hsp hfault
  have hs : s.noFault := congrArg FaultRecord.faulted hfault
  refine ⟨fun hlen => ?upToTwelve, fun hlen => ?thirteen⟩
  case upToTwelve => simpa only [hsp, Nat.zero_add] using execSeq_calls_of_le targets s hs (by omega)
  case thirteen =>
    obtain rfl | ⟨first, last, rfl⟩ := List.eq_nil_or_concat targets
    · cases hlen
    · rw [List.length_concat] at hlen
      obtain ⟨t, hseq, htsp, -⟩ := execSeq_calls_of_le first s hs (by omega)
      have hfull : t.sp.val = 12 := by omega
      have hlast : execSeq ((first.concat last).map .call) s = raiseAt .stackOverflow (.call last) t := by
        rw [List.concat_eq_append, List.map_append, execSeq_append_next hseq, List.map_singleton, execSeq,
          exec_call_of_full hfull]
        rfl
      exact ⟨_, hlast, hfull, rfl, rfl⟩

/-! ## Skips -/

section
variable (s : State) (c : Bool)

theorem skipIf_pc_of_true (h : c = true) : (s.skipIf c).pc = s.pc + 4 := by
  rw [State.skipIf_pc, if_pos h]

theorem skipIf_pc_of_false (h : c = false) : (s.skipIf c).pc = s.pc + 2 := by
  rw [State.skipIf_pc, h]; rfl

/-- What a skip answers: its frame, and PC in both cases. -/
theorem skipIf_spec : Frame [.pc] s (s.skipIf c) ∧ (c = true → (s.skipIf c).pc = s.pc + 4) ∧
    (c = false → (s.skipIf c).pc = s.pc + 2) :=
  ⟨(Frame.refl _ s).skipIf (by decide), skipIf_pc_of_true s c, skipIf_pc_of_false s c⟩

end

/-- Settles O26. -/
theorem immediateSkips : Obligations.ImmediateSkips := by
  intro x nn s
  obtain ⟨hframe, hskip, hnext⟩ := skipIf_spec s (s.getV x == nn)
  obtain ⟨hframe', hskip', hnext'⟩ := skipIf_spec s (s.getV x != nn)
  exact ⟨⟨_, rfl, hframe, fun h => hskip (beq_iff_eq.2 h), fun h => hnext (beq_eq_false_iff_ne.2 h)⟩,
    ⟨_, rfl, hframe', fun h => hskip' (bne_iff_ne.2 h), fun h => hnext' (bne_eq_false_iff_eq.2 h)⟩⟩

/-- Settles O27. -/
theorem registerSkips : Obligations.RegisterSkips := by
  intro x y s
  obtain ⟨hframe, hskip, hnext⟩ := skipIf_spec s (s.getV x == s.getV y)
  obtain ⟨hframe', hskip', hnext'⟩ := skipIf_spec s (s.getV x != s.getV y)
  exact ⟨⟨_, rfl, hframe, fun h => hskip (beq_iff_eq.2 h), fun h => hnext (beq_eq_false_iff_ne.2 h)⟩,
    ⟨_, rfl, hframe', fun h => hskip' (bne_iff_ne.2 h), fun h => hnext' (bne_eq_false_iff_eq.2 h)⟩⟩

theorem toNat_lowNibble (s : State) (x : Reg) : (s.lowNibble x).toNat = (s.getV x).toNat % 16 := by
  simp [State.lowNibble]

/-- Settles O28: the low nibble of a byte is its value modulo 16. -/
theorem keySkips : Obligations.KeySkips := by
  intro x s
  rw [← toNat_lowNibble]
  obtain ⟨hframe, hskip, hnext⟩ := skipIf_spec s (s.keyDown (s.lowNibble x).toNat)
  obtain ⟨hframe', hskip', hnext'⟩ := skipIf_spec s (!s.keyDown (s.lowNibble x).toNat)
  exact ⟨⟨_, rfl, hframe, hskip, hnext⟩,
    ⟨_, rfl, hframe', fun h => hskip' (congrArg not h), fun h => hnext' (congrArg not h)⟩⟩

end Sys2Proof.Machine

/-! Arithmetic, logic, shifts and the random byte (`42_alu.md`), the index register (`43_index_memory.md` R120 to R122),
the timers and the entry into the key wait (`45_timer_key.md`). An instruction that writes one register, or one register
and the flag, has one lemma for what it completes with; the instructions differ in the byte and the flag alone. -/

namespace Sys2Proof.Machine

section
variable {i : Instr} {s : State} {x : Reg} {b : Byte} {f : Bool}

theorem completes_setV (h : exec i s = .next (s.setV x b).advance) :
    ∃ t, exec i s = .next t ∧ t.getV x = b ∧ t.pc = s.pc + 2 ∧ RegsKept [x] s t ∧ Frame [.v, .pc] s t :=
  ⟨_, h, State.getV_setV_self _ _ _, rfl, regsKept_setV.advance, (frame_setV (by decide)).advance (by decide)⟩

theorem completes_setVThenFlag (h : exec i s = .next (s.setVThenFlag x b f).advance) :
    ∃ t, exec i s = .next t ∧ (t.getV vf).toNat = (if f then 1 else 0) ∧ (x ≠ vf → t.getV x = b) ∧
      t.pc = s.pc + 2 ∧ RegsKept [x, vf] s t ∧ Frame [.v, .pc] s t := by
  refine ⟨_, h, ?_, getV_setVThenFlag_of_ne_vf, rfl, regsKept_setVThenFlag.advance,
    (frame_setVThenFlag (by decide)).advance (by decide)⟩
  rw [State.advance_getV, getV_vf_setVThenFlag, toNat_flagByte]

end

/-! ## Without a flag -/

/-- Settles O30. -/
theorem addImmediateAndCopy : Obligations.AddImmediateAndCopy := by
  intro x y nn s
  refine ⟨?_, completes_setV rfl⟩
  obtain ⟨t, hexec, hx, hrest⟩ := completes_setV (i := .addImm x nn) (s := s) rfl
  exact ⟨t, hexec, by rw [hx, BitVec.toNat_add], hrest⟩

/-- Settles O31. -/
theorem logicIsBitwise : Obligations.LogicIsBitwise := by
  intro x y s
  refine ⟨?_, ?_, ?_⟩
  · obtain ⟨t, hexec, hx, hrest⟩ := completes_setV (i := .orReg x y) (s := s) rfl
    exact ⟨t, hexec, fun k _ => by rw [hx, BitVec.getLsbD_or], hrest⟩
  · obtain ⟨t, hexec, hx, hrest⟩ := completes_setV (i := .andReg x y) (s := s) rfl
    exact ⟨t, hexec, fun k _ => by rw [hx, BitVec.getLsbD_and], hrest⟩
  · obtain ⟨t, hexec, hx, hrest⟩ := completes_setV (i := .xorReg x y) (s := s) rfl
    exact ⟨t, hexec, fun k _ => by rw [hx, BitVec.getLsbD_xor], hrest⟩

/-- Settles O35: the number of draws is an item of the frame, and of the instructions only RND writes it. -/
theorem randomDrawsOneByte : Obligations.RandomDrawsOneByte := by
  refine ⟨fun x nn s => ?draws, fun i s t hi h => exec_frame h .rndIndex ?others⟩
  case draws =>
    refine ⟨_, rfl, fun k _ => ?_, rfl, rfl, regsKept_setV,
      ((frame_setV (by decide)).rndDrawn (by decide)).advance (by decide)⟩
    rw [State.advance_getV, State.rndDrawn_getV, State.getV_setV_self, BitVec.getLsbD_and, State.rndByte]
  case others =>
    cases i with
    | rnd x nn => exact absurd rfl (hi x nn)
    | _ => simp [itemsWritten]

/-! ## With the flag written last -/

theorem toNat_sub_byte (a b : Byte) : (a - b).toNat = (a.toNat + 256 - b.toNat) % 256 := by
  have ha := a.isLt
  have hb := b.isLt
  rw [BitVec.toNat_sub]
  omega

/-- Settles O33. -/
theorem subtractionsSetNotBorrow : Obligations.SubtractionsSetNotBorrow := by
  intro x y s
  constructor
  · obtain ⟨t, hexec, hf, hx, hrest⟩ := completes_setVThenFlag (i := .subReg x y) (s := s) rfl
    exact ⟨t, hexec, by rw [hf]; simp only [noBorrow, decide_eq_true_eq, ge_iff_le],
      fun h => by rw [hx h, toNat_sub_byte], hrest⟩
  · obtain ⟨t, hexec, hf, hx, hrest⟩ := completes_setVThenFlag (i := .subnReg x y) (s := s) rfl
    exact ⟨t, hexec, by rw [hf]; simp only [noBorrow, decide_eq_true_eq, ge_iff_le],
      fun h => by rw [hx h, toNat_sub_byte], hrest⟩

theorem ite_shiftedOutRight (a : Byte) : (if shiftedOutRight a then 1 else 0) = a.toNat % 2 := by
  rw [shiftedOutRight, BitVec.getLsbD, Nat.testBit_zero]
  grind

theorem ite_shiftedOutLeft (a : Byte) : (if shiftedOutLeft a then 1 else 0) = a.toNat / 128 := by
  have ha := a.isLt
  rw [shiftedOutLeft, BitVec.getLsbD, Nat.testBit_eq_decide_div_mod_eq]
  grind

/-- Settles O34: the source is V[X], so Y has no part in it. -/
theorem shiftsSetTheBitShiftedOut : Obligations.ShiftsSetTheBitShiftedOut := by
  intro x y s
  constructor
  · obtain ⟨t, hexec, hf, hx, hrest⟩ := completes_setVThenFlag (i := .shr x y) (s := s) rfl
    refine ⟨t, hexec, hf.trans (ite_shiftedOutRight _), fun h => ?_, hrest⟩
    rw [hx h, State.shiftOperand_eq, BitVec.toNat_ushiftRight, Nat.shiftRight_eq_div_pow]
  · obtain ⟨t, hexec, hf, hx, hrest⟩ := completes_setVThenFlag (i := .shl x y) (s := s) rfl
    refine ⟨t, hexec, hf.trans (ite_shiftedOutLeft _), fun h => ?_, hrest⟩
    rw [hx h, State.shiftOperand_eq, BitVec.toNat_shiftLeft, Nat.shiftLeft_eq]

/-! ## The index register -/

theorem toNat_glyphAddress (d : BitVec 4) : (glyphAddress d).toNat = 5 * d.toNat := by
  have hd := d.isLt
  rw [glyphAddress, BitVec.toNat_ofNat, Config.fontBase, Config.fontGlyphBytes]
  omega

/-- Settles O38: the greatest glyph address is 75, so FX29 has nothing to reduce. -/
theorem indexRegisterWrites : Obligations.IndexRegisterWrites := by
  intro nnn x s
  refine ⟨⟨_, rfl, ?load, rfl, (frame_setI (by decide)).advance (by decide)⟩,
    ⟨_, rfl, ?add, rfl, (frame_setI (by decide)).advance (by decide)⟩,
    ⟨_, rfl, ?glyph, rfl, (frame_setI (by decide)).advance (by decide)⟩⟩
  case load => exact toNat_zext16 (by decide) nnn
  case add => rw [State.advance_i, State.afterAddI_eq, BitVec.toNat_add, toNat_zext16 (by decide)]
  case glyph => rw [State.advance_i, toNat_glyphAddress, toNat_lowNibble]

/-! ## The timers, and the entry into the wait -/

theorem soundOn_iff (s : State) : s.soundOn = true ↔ s.st ≠ 0 := bne_iff_ne

/-- Settles O49. -/
theorem timerInstructions : Obligations.TimerInstructions := fun x s =>
  ⟨completes_setV rfl,
    ⟨_, rfl, rfl, rfl, (frame_setDt (by decide)).advance (by decide)⟩,
    ⟨_, rfl, rfl, rfl, (frame_setSt (by decide)).advance (by decide), soundOn_iff _⟩⟩

/-- Settles O51. -/
theorem keyWaitIsEntered : Obligations.KeyWaitIsEntered := by
  intro x s hs
  refine ⟨_, rfl, rfl, rfl, ?_, frame_wait (by decide) (by decide)⟩
  simp [State.status, hs]

end Sys2Proof.Machine

/-! Transfers between the registers and memory (`43_index_memory.md` R123 to R126): a block of writes that lies in
memory is read back byte by byte and leaves every byte outside it as it was. -/

namespace Sys2Proof.Machine

section
variable {s t : State} {a j : Nat} {bs : List Byte}

theorem read_writeBytes_add {m : Memory} (hm : Memory.wf m = true) (ha : a + bs.length ≤ 4096) (hj : j < bs.length) :
    Memory.read (Memory.writeBytes m a bs) (a + j) = bs[j] := by
  have hin : a ≤ a + j ∧ a + j - a < bs.length := by omega
  rw [Memory.read_writeBytes bs m a hm ha, dif_pos hin]
  simp only [Nat.add_sub_cancel_left]

theorem memKept_writeBytes {n : Nat} (hm : s.memWf) (ha : a + bs.length ≤ 4096) (hn : bs.length = n)
    (ht : t.mem = Memory.writeBytes s.mem a bs) : MemKept a n s t := by
  intro b hb
  rw [ht, Memory.read_writeBytes bs s.mem a hm ha, dif_neg (by omega)]

end

/-! ## FX33 -/

theorem decimalDigits_fit {a : Nat} (h : a + 2 < 4096) (b : Byte) : a + (decimalDigits b).length ≤ 4096 := by
  rw [show (decimalDigits b).length = 3 from rfl]
  omega

theorem toNat_ofNat_of_le {n : Nat} (b : Byte) (h : n ≤ b.toNat) : (BitVec.ofNat 8 n).toNat = n :=
  Nat.mod_eq_of_lt (Nat.lt_of_le_of_lt h b.isLt)

/-- Settles O39: no digit is greater than the byte, so each fits its cell. -/
theorem bcdStoresThreeDigits : Obligations.BcdStoresThreeDigits := by
  intro x s hm
  refine ⟨Laws.RoundTrip.ldB x rfl, fun hfit => ?stores, fun hfit => ⟨_, exec_ldB_of_beyond hfit, rfl, frame_raise s _⟩⟩
  case stores =>
    have hfit' := decimalDigits_fit hfit (s.getV x)
    have digit : ∀ j (hj : j < 3), Memory.read (Memory.writeBytes s.mem s.i.toNat (decimalDigits (s.getV x)))
        (s.i.toNat + j) = (decimalDigits (s.getV x))[j] := fun j hj => read_writeBytes_add hm hfit' hj
    refine ⟨_, exec_ldB_of_fits hfit, ?_, ?_, ?_, memKept_writeBytes hm hfit' rfl rfl, rfl,
      (frame_setMem (by decide)).advance (by decide)⟩
    · exact (congrArg _ (digit 0 (by decide))).trans (toNat_ofNat_of_le (s.getV x) (by omega))
    · exact (congrArg _ (digit 1 (by decide))).trans (toNat_ofNat_of_le (s.getV x) (by omega))
    · exact (congrArg _ (digit 2 (by decide))).trans (toNat_ofNat_of_le (s.getV x) (by omega))

/-! ## FX55 and FX65 -/

theorem length_getVs_upTo (s : State) (x : Reg) : (s.getVs 0 (x.val + 1)).length = x.val + 1 :=
  State.length_getVs s (x.val + 1) 0 (by have := x.isLt; simp only [Config.numV]; omega)

theorem getVs_fit {a : Nat} {x : Reg} (h : a + x.val < 4096) (s : State) :
    a + (s.getVs 0 (x.val + 1)).length ≤ 4096 := by
  rw [length_getVs_upTo]
  omega

theorem State.setVs_pc (s : State) (k : Nat) (bs : List Byte) : (s.setVs k bs).pc = s.pc := by
  rw [State.setVs_eq]

/-- Settles O40. -/
theorem storeRegistersToMemory : Obligations.StoreRegistersToMemory := by
  intro x s hm
  refine ⟨fun hfit => ?stores, fun hfit => ⟨_, exec_ldMemVx_of_beyond hfit, rfl, frame_raise s _⟩⟩
  case stores =>
    have hlen := length_getVs_upTo s x
    have hfit' := getVs_fit hfit s
    refine ⟨_, exec_ldMemVx_of_fits hfit, fun r hr => ?_, memKept_writeBytes hm hfit' hlen rfl, rfl,
      (frame_setMem (by decide)).advance (by decide)⟩
    have hr' : r.val < (s.getVs 0 (x.val + 1)).length := hlen.symm ▸ Nat.lt_succ_of_le hr
    rw [State.advance_mem, read_writeBytes_add hm hfit' hr', State.getElem_getVs _ _ _ _ _ (by omega)]
    congr 1
    exact Fin.ext (Nat.zero_add _)

/-- Settles O41. -/
theorem loadRegistersFromMemory : Obligations.LoadRegistersFromMemory := by
  intro x s
  refine ⟨fun hfit => ?loads, fun hfit => ⟨_, exec_ldVxMem_of_beyond hfit, rfl, frame_raise s _⟩⟩
  case loads =>
    refine ⟨_, exec_ldVxMem_of_fits hfit, fun r => ?_, ?_, (frame_setVs (by decide)).advance (by decide)⟩
    · rw [State.advance_getV, State.getV_setVs]
      simp only [Memory.length_readBytes, Nat.zero_le, true_and, Nat.sub_zero, Memory.getElem_readBytes, Fin.le_def,
        Nat.lt_succ_iff, dite_eq_ite]
    · rw [State.advance_pc, State.setVs_pc]

/-- Settles O42: the load reads only the bytes that the store wrote, and I. -/
theorem storeThenLoadGivesTheRegistersBack : Obligations.StoreThenLoadGivesTheRegistersBack := by
  intro x s hm hfit
  obtain ⟨t, hstore, hbytes, -, -, hframe⟩ := (storeRegistersToMemory x s hm).1 hfit
  refine ⟨t, hstore, fun t' hmem hi => ?_⟩
  have hi' : t'.i = s.i := hi.trans (hframe .i (by decide))
  obtain ⟨u, hload, hregs, -⟩ := (loadRegistersFromMemory x t').1 (by rwa [hi'])
  refine ⟨u, hload, fun r hr => ?_⟩
  rw [hregs r, if_pos hr, hmem, hi', hbytes r hr]

/-! ## The canonical form of memory -/

/-- Only FX33 and FX55 store, and only blocks that lie in memory. -/
theorem exec_memWf {i : Instr} {s t : State} (hm : s.memWf) (h : exec i s = .next t) : t.memWf := by
  cases i with
  | ret => rcases exec_ret_cases h with ⟨-, rfl⟩ | ⟨-, rfl⟩ <;> exact hm
  | call => rcases exec_call_cases h with ⟨-, rfl⟩ | ⟨-, rfl⟩ <;> exact hm
  | drw => rcases exec_drw_cases h with ⟨-, -, rfl⟩ | ⟨-, rfl⟩ <;> exact hm
  | ldB =>
    rcases exec_ldB_cases h with ⟨-, rfl⟩ | ⟨hfit, rfl⟩
    · exact hm
    · exact Memory.wf_writeBytes _ _ _ hm (decimalDigits_fit hfit _)
  | ldMemVx =>
    rcases exec_ldMemVx_cases h with ⟨-, rfl⟩ | ⟨hfit, rfl⟩
    · exact hm
    · exact Memory.wf_writeBytes _ _ _ hm (getVs_fit hfit s)
  | ldVxMem =>
    rcases exec_ldVxMem_cases h with ⟨-, rfl⟩ | ⟨-, rfl⟩
    · exact hm
    · rw [State.setVs_eq]; exact hm
  | _ => cases h; exact hm

end Sys2Proof.Machine

/-! Drawing (`44_display.md`): what DXYN leaves of the display and of VF, as the pixels its sprite covers. -/

namespace Sys2Proof.Machine

section
variable {s t : State} {x y : Reg} {n : BitVec 4} {px : Fin Config.dispW} {py : Fin Config.dispH}

theorem wrapX_val_eq_iff {k : Nat} : px = wrapX k ↔ px.val = k % 64 := Fin.ext_iff

theorem wrapY_val_eq_iff {k : Nat} : py = wrapY k ↔ py.val = k % 32 := Fin.ext_iff

/-- The statement's covered pixels are those of the list of bytes that DXYN reads. -/
theorem spriteCovers_readBytes_iff :
    SpriteCovers (s.getV x).toNat (s.getV y).toNat (Memory.readBytes s.mem s.i.toNat n.toNat) px py ↔
      s.spriteCovers x y n px py := by
  simp only [SpriteCovers, State.spriteCovers, wrapX_val_eq_iff, wrapY_val_eq_iff, Memory.length_readBytes,
    Memory.getElem_readBytes, exists_prop]
  grind

theorem drawn_spec (s : State) (x y : Reg) (n : BitVec 4) :
    (∀ px py, Display.pixel (s.drawn x y n).disp px py = true ↔ ¬ (s.pixelSet px py ↔ s.spriteCovers x y n px py)) ∧
    ((s.drawn x y n).hit = true ↔ ∃ px py, s.spriteCovers x y n px py ∧ s.pixelSet px py) := by
  have hlen : (Memory.readBytes s.mem s.i.toNat n.toNat).length ≤ 32 := by
    have := n.isLt
    rw [Memory.length_readBytes]
    omega
  have h := Canvas.drawSprite_spec (s.getV x).toNat (Memory.readBytes s.mem s.i.toNat n.toNat) (s.getV y).toNat
    ⟨s.disp, false⟩ hlen
  simp only [spriteCovers_readBytes_iff, Bool.false_eq_true, false_or] at h
  exact h

theorem flagByte_eq_one_iff {f : Bool} : flagByte f = 1 ↔ f = true := by
  cases f <;> decide

theorem flagByte_eq_zero_iff {f : Bool} : flagByte f = 0 ↔ f = false := by
  cases f <;> decide

end

/-- Settles O45: `Canvas.drawSprite_spec` on the bytes at I. -/
theorem drawInvertsTheCoveredPixels : Obligations.DrawInvertsTheCoveredPixels := by
  intro x y n s
  obtain ⟨hpix, hhit⟩ := drawn_spec s x y n
  refine ⟨fun hfit => ?draws, fun hn hfit => ⟨_, exec_drw_of_beyond hn hfit, rfl, frame_raise s _⟩⟩
  case draws =>
    refine ⟨_, exec_drw_of_fits hfit, hpix, fun h => ?_, fun h => ?_, rfl, regsKept_setV (s := { s with disp := _ }),
      ((frame_setDisp (by decide)).trans (frame_setV (by decide))).advance (by decide)⟩
    · rw [State.advance_getV, State.getV_setV_self, flagByte_eq_one_iff, hhit]
      exact h
    · rw [State.advance_getV, State.getV_setV_self, flagByte_eq_zero_iff, ← Bool.not_eq_true, hhit]
      exact h

/-- The collision flag of a completed draw, as an equivalence. -/
theorem exec_drw_spec (x y : Reg) (n : BitVec 4) (s : State) (hfit : n = 0 ∨ s.i.toNat + n.toNat - 1 < 4096) :
    ∃ t, exec (.drw x y n) s = .next t ∧
      (∀ px py, t.pixelSet px py ↔ ¬ (s.pixelSet px py ↔ s.spriteCovers x y n px py)) ∧
      (t.getV vf = 1 ↔ ∃ px py, s.spriteCovers x y n px py ∧ s.pixelSet px py) ∧ Frame [.disp, .v, .pc] s t := by
  obtain ⟨t, hexec, hpix, hone, hzero, -, -, hframe⟩ := (drawInvertsTheCoveredPixels x y n s).1 hfit
  refine ⟨t, hexec, hpix, ⟨fun h => ?_, hone⟩, hframe⟩
  by_contra hnone
  rw [hzero hnone] at h
  exact absurd h (by decide)

/-- The covered pixels depend on memory, I, the two coordinates and the number of rows alone. -/
theorem spriteCovers_congr {s t : State} {x y x' y' : Reg} {n : BitVec 4}
    (hmem : ∀ a, Memory.read t.mem a = Memory.read s.mem a) (hi : t.i = s.i) (hx : t.getV x' = s.getV x)
    (hy : t.getV y' = s.getV y) (px : Fin Config.dispW) (py : Fin Config.dispH) : t.spriteCovers x' y' n px py ↔ s.spriteCovers x y n px py := by
  simp only [State.spriteCovers, hmem, hi, hx, hy]

theorem inverted_twice_iff {p c : Prop} : ¬ (¬ (p ↔ c) ↔ c) ↔ p := by
  by_cases hc : c <;> simp [hc]

/-- Settles O46: both draws cover the same pixels, and inverting a pixel twice gives it back. -/
theorem drawingTwiceRestoresTheDisplay : Obligations.DrawingTwiceRestoresTheDisplay := by
  intro x y n s hfit
  obtain ⟨t, hexec, hpix, hflag, hframe⟩ := exec_drw_spec x y n s hfit
  refine ⟨t, hexec, fun px py hc => ?_, fun px py hc => ?_, ?_, fun x' y' hx hy => ?second⟩
  · simp only [hpix, hc, iff_true]
  · simp only [hpix, hc, iff_false, not_not]
  · simp only [hflag, hpix]
    refine exists₂_congr fun px py => ?_
    tauto
  case second =>
    have hmem := hframe .mem (by decide)
    have hi : t.i = s.i := hframe .i (by decide)
    have hcov := spriteCovers_congr (n := n) hmem hi hx hy
    obtain ⟨u, hexec', hpix', hflag', -⟩ := exec_drw_spec x' y' n t (by rwa [hi])
    refine ⟨u, hexec', Display.ext_pixel fun px py => Bool.eq_iff_iff.2 ?_, ?_⟩
    · have hu := hpix' px py
      rw [hcov, hpix px py] at hu
      exact hu.trans inverted_twice_iff
    · simp only [hflag', hcov, hpix]
      refine exists₂_congr fun px py => ?_
      tauto

end Sys2Proof.Machine

/-! What an instruction does not read (`10_state.md` R18, R19, R26): the timers, the key latch and the coming moves are
the items that other agents write. Replaced before an instruction, they are found replaced after it and nothing else is
different, unless the instruction is one of those that read them. -/

namespace Sys2Proof.Machine

/-- `s` with the items that the timer, the keypad and the schedule write replaced. -/
def State.withInputs (s : State) (d b : Byte) (key : BitVec 16) (es : List AgentEvent) : State :=
  { s with dt := d, st := b, key := key, schedule := es }

section
variable {i : Instr} {s t : State} {d b : Byte} {key : BitVec 16} {es : List AgentEvent}

theorem setVs_withInputs {k : Nat} {bs : List Byte} :
    (s.withInputs d b key es).setVs k bs = (s.setVs k bs).withInputs d b key es := by
  induction bs generalizing s k with
  | nil => rfl
  | cons c cs ih =>
    unfold State.setVs
    split
    · exact ih (s := s.setV ⟨k, ‹_›⟩ c)
    · rfl

theorem getVs_withInputs {n : Nat} : ∀ k, (s.withInputs d b key es).getVs k n = s.getVs k n := by
  induction n with
  | zero => exact fun _ => rfl
  | succ n ih =>
    intro k
    unfold State.getVs
    simp only [ih]
    rfl

/-- FX15 and FX18 write a timer anew, every other instruction leaves a timer at the replacement. -/
theorem exec_withInputs (hdt : d = s.dt ∨ ∀ x, i ≠ .ldVxDt x)
    (hkey : key = s.key ∨ (∀ x, i ≠ .skp x) ∧ ∀ x, i ≠ .sknp x) (h : exec i s = .next t) :
    ∃ d' b', exec i (s.withInputs d b key es) = .next (t.withInputs d' b' key es) ∧
      (d = s.dt → d' = t.dt) ∧ (b = s.st → b' = t.st) := by
  cases i with
  | ldVxDt x =>
    obtain rfl : d = s.dt := hdt.resolve_right fun hne => hne x rfl
    cases h
    exact ⟨_, _, rfl, id, id⟩
  | skp x =>
    obtain rfl : key = s.key := hkey.resolve_right fun hne => hne.1 x rfl
    cases h
    exact ⟨_, _, rfl, id, id⟩
  | sknp x =>
    obtain rfl : key = s.key := hkey.resolve_right fun hne => hne.2 x rfl
    cases h
    exact ⟨_, _, rfl, id, id⟩
  | ldDtVx x =>
    cases h
    exact ⟨_, _, rfl, fun _ => rfl, id⟩
  | ldStVx x =>
    cases h
    exact ⟨_, _, rfl, id, fun _ => rfl⟩
  | ret =>
    rcases exec_ret_cases h with ⟨hsp, rfl⟩ | ⟨hsp, rfl⟩
    · exact ⟨_, _, exec_ret_of_zero hsp, id, id⟩
    · exact ⟨d, b, exec_ret_of_pos (s := s.withInputs d b key es) hsp, id, id⟩
  | call =>
    rcases exec_call_cases h with ⟨hsp, rfl⟩ | ⟨hsp, rfl⟩
    · exact ⟨_, _, exec_call_of_full hsp, id, id⟩
    · exact ⟨d, b, exec_call_of_lt (s := s.withInputs d b key es) hsp, id, id⟩
  | drw =>
    rcases exec_drw_cases h with ⟨hn, hfit, rfl⟩ | ⟨hfit, rfl⟩
    · exact ⟨_, _, exec_drw_of_beyond hn hfit, id, id⟩
    · exact ⟨_, _, exec_drw_of_fits hfit, id, id⟩
  | ldB =>
    rcases exec_ldB_cases h with ⟨hfit, rfl⟩ | ⟨hfit, rfl⟩
    · exact ⟨_, _, exec_ldB_of_beyond hfit, id, id⟩
    · exact ⟨_, _, exec_ldB_of_fits hfit, id, id⟩
  | ldMemVx =>
    rcases exec_ldMemVx_cases h with ⟨hfit, rfl⟩ | ⟨hfit, rfl⟩
    · exact ⟨_, _, exec_ldMemVx_of_beyond hfit, id, id⟩
    · refine ⟨d, b, (exec_ldMemVx_of_fits (s := s.withInputs d b key es) hfit).trans ?_, id, id⟩
      rw [getVs_withInputs]
      rfl
  | ldVxMem =>
    rcases exec_ldVxMem_cases h with ⟨hfit, rfl⟩ | ⟨hfit, rfl⟩
    · exact ⟨_, _, exec_ldVxMem_of_beyond hfit, id, id⟩
    · refine ⟨d, b, (exec_ldVxMem_of_fits (s := s.withInputs d b key es) hfit).trans ?_, ?_, ?_⟩
      · rw [setVs_withInputs]
        rfl
      · rw [State.setVs_eq]
        exact id
      · rw [State.setVs_eq]
        exact id
  | _ =>
    cases h
    exact ⟨_, _, rfl, id, id⟩

theorem exec_key_eq (h : exec i s = .next t) : t.key = s.key :=
  exec_frame h .key (by cases i <;> simp [itemsWritten])

theorem exec_schedule_eq (h : exec i s = .next t) : t.schedule = s.schedule :=
  exec_frame h .schedule (by cases i <;> simp [itemsWritten])

/-- No instruction but EX9E and EXA1 reads the latch. -/
theorem exec_setKey (hskp : ∀ x, i ≠ .skp x) (hsknp : ∀ x, i ≠ .sknp x) (h : exec i s = .next t) :
    exec i { s with key := key } = .next { t with key := key } := by
  obtain ⟨d', b', hexec, hd, hb⟩ :=
    exec_withInputs (key := key) (es := s.schedule) (.inl rfl) (.inr ⟨hskp, hsknp⟩) h
  refine hexec.trans ?_
  rw [hd rfl, hb rfl, ← exec_schedule_eq h]
  rfl

/-- No instruction reads the coming moves. -/
theorem exec_setSchedule (h : exec i s = .next t) :
    exec i { s with schedule := es } = .next { t with schedule := es } := by
  obtain ⟨d', b', hexec, hd, hb⟩ := exec_withInputs (es := es) (.inl rfl) (.inl rfl) h
  refine hexec.trans ?_
  rw [hd rfl, hb rfl, ← exec_key_eq h]
  rfl

/-- No instruction but FX07 reads DT. -/
theorem exec_setDt (hi : ∀ x, i ≠ .ldVxDt x) (h : exec i s = .next t) :
    ∃ u, exec i { s with dt := d } = .next u ∧ Frame [.dt] t u := by
  obtain ⟨d', b', hexec, -, hb⟩ := exec_withInputs (es := s.schedule) (.inr hi) (.inl rfl) h
  refine ⟨{ t with dt := d' }, hexec.trans ?_, frame_setDt (by decide)⟩
  rw [hb rfl, ← exec_key_eq h, ← exec_schedule_eq h]
  rfl

/-- No instruction reads ST. -/
theorem exec_setSt (h : exec i s = .next t) : ∃ u, exec i { s with st := b } = .next u ∧ Frame [.st] t u := by
  obtain ⟨d', b', hexec, hd, -⟩ := exec_withInputs (es := s.schedule) (.inl rfl) (.inl rfl) h
  refine ⟨{ t with st := b' }, hexec.trans ?_, frame_setSt (by decide)⟩
  rw [hd rfl, ← exec_key_eq h, ← exec_schedule_eq h]
  rfl

end

end Sys2Proof.Machine

/-! The step event of the core and the events of the other agents (`30_encoding.md` R64, `10_state.md` R26): one
equation per outcome of the step event, and what a move of any agent answers. -/

namespace Sys2Proof.Machine

section
variable {s t : State} {w : Word} {i : Instr} {e : AgentEvent} {es : List AgentEvent}

/-! ## The outcomes of the step event -/

theorem step_of_coreNext (h : s.coreNext) : step s = stepEvent s := by
  change nextMove s = _
  unfold nextMove
  rw [h]

theorem step_of_scheduled (h : s.schedule = e :: es) : step s = deliver e { s with schedule := es } := by
  change nextMove s = _
  unfold nextMove
  rw [h]

theorem stepEvent_of_faulted (h : s.fault.faulted = true) : stepEvent s = .next s := if_pos h

theorem stepEvent_of_waiting (hs : s.noFault) (hm : s.mode = .waitingForKey) : stepEvent s = .next (observeKeys s) := by
  unfold stepEvent
  rw [if_neg (Bool.eq_false_iff.1 hs), hm]

theorem stepEvent_of_ready (hs : s.ready) : stepEvent s = runInstruction s := by
  obtain ⟨hfault, hm⟩ := hs
  unfold stepEvent
  rw [if_neg (Bool.eq_false_iff.1 hfault), hm]

theorem stepEvent_of_fetch_none (hs : s.ready) (hf : s.fetch = none) :
    stepEvent s = raise .outOfBounds 0 s.pc s := by
  rw [stepEvent_of_ready hs, runInstruction, hf]

theorem stepEvent_of_decode_none (hs : s.ready) (hf : s.fetch = some w) (hd : decodeWord w = none) :
    stepEvent s = raise .invalidOpcode w s.pc s := by
  rw [stepEvent_of_ready hs, runInstruction, hf]
  simp only [hd]

theorem stepEvent_of_about (hr : s.ready) (hi : s.fetch.bind decodeWord = some i) : stepEvent s = exec i s := by
  obtain ⟨w, hf, hd⟩ := Option.bind_eq_some_iff.1 hi
  exact stepEvent_ready hr hf hd

theorem stepEvent_next (s : State) : ∃ t, stepEvent s = .next t := by
  by_cases hfault : s.fault.faulted = true
  · exact ⟨_, stepEvent_of_faulted hfault⟩
  · have hs : s.noFault := Bool.eq_false_iff.2 hfault
    cases hm : s.mode with
    | waitingForKey => exact ⟨_, stepEvent_of_waiting hs hm⟩
    | running =>
      cases hf : s.fetch with
      | none => exact ⟨_, stepEvent_of_fetch_none ⟨hs, hm⟩ hf⟩
      | some w =>
        cases hd : decodeWord w with
        | none => exact ⟨_, stepEvent_of_decode_none ⟨hs, hm⟩ hf hd⟩
        | some i =>
          obtain ⟨t, ht⟩ := exec_next i s
          exact ⟨t, (stepEvent_ready ⟨hs, hm⟩ hf hd).trans ht⟩

/-- Everything the observation of the keys can do (`45_timer_key.md` R144). -/
theorem observeKeys_cases (s : State) :
    (lowestKey s.key = none ∧ observeKeys s = s) ∨
    ∃ k, lowestKey s.key = some k ∧
      observeKeys s = State.advance { s.setV s.waitReg (BitVec.ofNat 8 k) with mode := .running } := by
  unfold observeKeys
  cases lowestKey s.key with
  | none => exact .inl ⟨rfl, rfl⟩
  | some k => exact .inr ⟨k, rfl, rfl⟩

theorem frame_setMode {ws : List Item} {m : Mode} (hm : .mode ∈ ws) : Frame ws s { s with mode := m } := by
  rw [frame_iff]
  simp [hm, State.getV]

theorem frame_observeKeys (s : State) : Frame [.v, .pc, .mode] s (observeKeys s) := by
  rcases observeKeys_cases s with ⟨-, h⟩ | ⟨k, -, h⟩ <;> rw [h]
  · exact Frame.refl _ s
  · exact ((frame_setV (by decide)).trans (frame_setMode (by decide))).advance (by decide)

theorem observeKeys_fault (s : State) : (observeKeys s).fault = s.fault := frame_observeKeys s .fault (by decide)

/-- An item that neither the observation of the keys nor a fault writes is kept by the step event, if the instruction
run keeps it. -/
theorem stepEvent_same {it : Item} (h : stepEvent s = .next t) (hit : it ∉ [.v, .pc, .mode, .fault])
    (hinstr : ∀ i, s.ready → s.fetch.bind decodeWord = some i → exec i s = .next t → it.same s t) : it.same s t := by
  rcases stepEvent_cases s t h with ⟨-, rfl⟩ | ⟨-, -, rfl⟩ | ⟨-, -, rfl⟩ | ⟨w, -, -, -, rfl⟩ | ⟨w, i, hr, hf, hd, hexec⟩
  · exact Frame.refl _ _ it hit
  · exact (frame_observeKeys s).mono (by decide) it hit
  · exact (frame_raise s _).mono (by decide) it hit
  · exact (frame_raise s _).mono (by decide) it hit
  · exact hinstr i hr (Option.bind_eq_some_iff.2 ⟨w, hf, hd⟩) hexec

/-! ## Every move answers a next state -/

theorem deliver_next (e : AgentEvent) (s : State) : ∃ t, deliver e s = .next t := by
  cases e with
  | step => exact stepEvent_next s
  | resetLoad rom =>
    rcases loadEvent_cases (resetEvent s) rom with ⟨-, h⟩ | ⟨-, h⟩
    · exact ⟨_, h⟩
    · exact ⟨_, h⟩
  | tick | keyIn | reset => exact ⟨_, rfl⟩

end

/-- Settles O9. -/
theorem everyStepHasANextState : Obligations.EveryStepHasANextState := by
  intro s
  cases hs : s.schedule with
  | nil =>
    rw [step_of_coreNext hs]
    exact stepEvent_next s
  | cons e es =>
    rw [step_of_scheduled hs]
    exact deliver_next e _

/-! ## Fetch and decode -/

section
variable {s : State}

theorem fetch_of_lt (h : s.pc.toNat + 1 < 4096) :
    s.fetch = some (wordOfBytes (Memory.read s.mem s.pc.toNat) (Memory.read s.mem (s.pc.toNat + 1))) :=
  if_pos h

theorem fetch_of_le (h : 4096 ≤ s.pc.toNat + 1) : s.fetch = none :=
  if_neg (Nat.not_lt.2 h)

theorem pc_le_of_fetch {w : Word} (h : s.fetch = some w) : s.pc.toNat ≤ 4094 := by
  rcases s.fetch_cases with ⟨hpc, -⟩ | ⟨-, hnone⟩
  · exact hpc
  · rw [hnone] at h; cases h

theorem wordOfBytes_eq_ofNat (hi lo : Byte) : wordOfBytes hi lo = BitVec.ofNat 16 (hi.toNat * 256 + lo.toNat) :=
  eq_ofNat_of_toNat (toNat_wordOfBytes hi lo)

end

/-- Settles O6: a move taken off the list leaves mode, fault record, PC and memory as they were. -/
theorem stepRunsTheDecodedInstruction : Obligations.StepRunsTheDecodedInstruction := by
  intro s i hr hpc hd
  rw [← wordOfBytes_eq_ofNat] at hd
  have hf := fetch_of_lt hpc
  refine ⟨fun hs => ?_, fun rest hs => ?_⟩
  · rw [step_of_coreNext hs]
    exact stepEvent_ready hr hf hd
  · rw [step_of_scheduled hs]
    exact stepEvent_ready (s := { s with schedule := rest }) hr hf hd

/-- Settles O7. -/
theorem fetchBeyondMemoryFaults : Obligations.FetchBeyondMemoryFaults := by
  intro s hs hr hpc
  rw [step_of_coreNext hs, stepEvent_of_fetch_none hr (fetch_of_le hpc)]
  exact ⟨_, rfl, rfl, frame_raise s _⟩

theorem faultsWith_invalidOpcode_iff {i : Instr} {s : State} :
    FaultsWith i s .invalidOpcode ↔ ∃ nnn, i = .sys nnn := by
  simp [FaultsWith]

/-- Settles O8: an illegal word selects no instruction or SYS, and no other instruction takes InvalidOpcode. -/
theorem illegalWordFaults : Obligations.IllegalWordFaults := by
  intro s w hs hr hf
  rw [step_of_coreNext hs]
  refine ⟨fun hill => ?illegal, fun hlegal hclear => ?legal⟩
  case illegal =>
    rcases (illegalWordsAreThoseWithoutMeaning w).1 hill with hd | ⟨nnn, hd⟩
    · exact ⟨_, stepEvent_of_decode_none hr hf hd, rfl, frame_raise s _⟩
    · obtain ⟨hw, -⟩ := encode_of_decodeWord hd
      obtain ⟨t, hexec, hfault, hframe⟩ := sysTakesInvalidOpcode nnn s
      exact ⟨t, (stepEvent_ready hr hf hd).trans hexec, by rw [hfault, ← hw]; rfl, hframe⟩
  case legal =>
    obtain ⟨hnone, hsys⟩ := not_or.1 (mt (illegalWordsAreThoseWithoutMeaning w).2 hlegal)
    obtain ⟨i, hd⟩ := Option.ne_none_iff_exists'.1 hnone
    obtain ⟨t, hexec⟩ := exec_next i s
    refine ⟨t, (stepEvent_ready hr hf hd).trans hexec, fun hcause => ?_⟩
    rcases exec_fault_cases i s t hexec with hsame | ⟨c, rfl, hwith⟩
    · rw [hsame, hclear] at hcause
      cases hcause
    · obtain rfl : c = .invalidOpcode := hcause
      obtain ⟨nnn, rfl⟩ := faultsWith_invalidOpcode_iff.1 hwith
      exact hsys ⟨nnn, hd⟩

/-- Settles O43: the store writes the two bytes that the next fetch reads. -/
theorem aStoreIsSeenByTheNextFetch : Obligations.AStoreIsSeenByTheNextFetch := by
  rintro x s hm ⟨hs, hr, hi⟩ hx hpc hfit
  obtain ⟨t, hexec, hbytes, -, htpc, -⟩ := (storeRegistersToMemory x s hm).1 hfit
  have htpc' : t.pc = s.i := htpc.trans hpc.symm
  refine ⟨t, by rw [step_of_coreNext hs, stepEvent_of_about hr hi, hexec], ?_⟩
  have h0 : Memory.read t.mem s.i.toNat = s.getV 0 := hbytes 0 (Nat.zero_le _)
  have h1 : Memory.read t.mem (s.i.toNat + 1) = s.getV 1 := hbytes 1 hx
  rw [fetch_of_lt (by rw [htpc']; omega), htpc', h0, h1, wordOfBytes_eq_ofNat]

/-! ## The schedule -/

section
variable {s t : State} {e : AgentEvent} {es : List AgentEvent}

theorem observeKeys_setSchedule : observeKeys { s with schedule := es } = { observeKeys s with schedule := es } := by
  unfold observeKeys
  cases lowestKey s.key with
  | none => rfl
  | some k => rfl

theorem stepEvent_setSchedule (h : stepEvent s = .next t) :
    stepEvent { s with schedule := es } = .next { t with schedule := es } := by
  rcases stepEvent_cases s t h with ⟨hf, rfl⟩ | ⟨hs, hm, rfl⟩ | ⟨hr, hf, rfl⟩ | ⟨w, hr, hf, hd, rfl⟩ |
    ⟨w, i, hr, hf, hd, hexec⟩
  · exact stepEvent_of_faulted hf
  · rw [← observeKeys_setSchedule]
    exact stepEvent_of_waiting hs hm
  · exact stepEvent_of_fetch_none hr hf
  · exact stepEvent_of_decode_none hr hf hd
  · exact (stepEvent_ready (s := { s with schedule := es }) hr hf hd).trans (exec_setSchedule hexec)

theorem stepEvent_schedule_eq (h : stepEvent s = .next t) : t.schedule = s.schedule :=
  stepEvent_same (it := .schedule) h (by decide) fun _ _ _ => exec_schedule_eq

theorem deliver_setSchedule (h : deliver e s = .next t) :
    deliver e { s with schedule := es } = .next { t with schedule := es } := by
  cases e with
  | step => exact stepEvent_setSchedule h
  | tick =>
    cases h
    exact congrArg Host.Outcome.next (by unfold tickEvent; split <;> rfl)
  | keyIn | reset => cases h; rfl
  | resetLoad rom =>
    change loadEvent rom (resetEvent s) = _ at h
    change loadEvent rom (resetEvent { s with schedule := es }) = _
    unfold loadEvent at h ⊢
    split at h
    next hlen => rw [if_pos hlen]; cases h; rfl
    next hlen => rw [if_neg hlen]; cases h; rfl

theorem deliver_schedule_eq (h : deliver e s = .next t) : t.schedule = s.schedule := by
  cases e with
  | step => exact stepEvent_schedule_eq h
  | tick => cases h; unfold tickEvent; split <;> rfl
  | keyIn | reset => cases h; rfl
  | resetLoad rom =>
    rcases loadEvent_cases (resetEvent s) rom with ⟨-, hload⟩ | ⟨-, hload⟩
    · cases hload.symm.trans h; rfl
    · cases hload.symm.trans h; rfl

theorem run_schedule_eq_deliverAll (es : List AgentEvent) : ∀ s : State, s.schedule = [] →
    Sys2Proof.core.run es.length { s with schedule := es } = deliverAll es s := by
  induction es with
  | nil =>
    intro s hs
    have hself : { s with schedule := [] } = s := by rw [← hs]
    exact congrArg Host.Outcome.next hself
  | cons e es ih =>
    intro s hs
    obtain ⟨t, ht⟩ := deliver_next e s
    have hstep : Sys2Proof.core.step { s with schedule := e :: es } = .next { t with schedule := es } :=
      (step_of_scheduled (s := { s with schedule := e :: es }) rfl).trans (deliver_setSchedule (s := s) ht)
    have ht' := (deliver_schedule_eq ht).trans hs
    simp only [List.length_cons, Host.Core.run, hstep, deliverAll, ht]
    exact ih t ht'

end

/-- Settles O10: no move reads or writes the moves after it. -/
theorem scheduledMovesHappenInOrder : Obligations.ScheduledMovesHappenInOrder := by
  intro es s t hs
  rw [run_schedule_eq_deliverAll es s hs]
  rfl

end Sys2Proof.Machine

/-! Reset, load, and the invariants (`10_state.md` R16, R22, R28, `60_exceptions.md` R150, `70_reset_and_hazards.md`).
An invariant reads nothing that the timer, the keypad or the schedule write, so it is kept by every move when the core's
step event keeps it and every reset, with or without a load, ends in it. -/

namespace Sys2Proof.Machine

/-! ## Reset -/

theorem getV_reset (r : Reg) : State.reset.getV r = 0 := by
  simp [State.getV, State.reset]

theorem not_pixelSet_reset (px : Fin Config.dispW) (py : Fin Config.dispH) : ¬ State.reset.pixelSet px py := by
  rw [Bool.not_eq_true]
  exact Display.pixel_clear px py

theorem resetByte_eq (a : Nat) : resetByte a = if h : a < 80 then fontTable[a]'h else 0 := by
  unfold resetByte
  by_cases h : a < 80
  · have hfont : Config.fontBase ≤ a ∧ a < Config.fontBase + Config.fontSize := ⟨Nat.zero_le a, by rwa [Nat.zero_add]⟩
    rw [if_pos hfont, dif_pos h]
    exact List.getD_eq_getElem fontTable 0 h
  · rw [dif_neg h, if_neg fun hfont => h (by rw [Nat.zero_add] at hfont; exact hfont.2)]

/-- Settles O11. -/
theorem resetValues : Obligations.ResetValues :=
  ⟨resetByte_eq, getV_reset, rfl, rfl, by decide, rfl, rfl, rfl, rfl, not_pixelSet_reset, rfl, rfl, rfl, rfl, rfl⟩

theorem frame_resetEvent (s : State) : Frame [.rndIndex, .schedule] State.reset (resetEvent s) := by
  rw [frame_iff]
  simp [resetEvent, State.getV]

/-- Settles O12: the image lies within 0x200 to 0xFFF, so it is read back and every other byte is that of the reset. -/
theorem resetAndLoadFromEveryState : Obligations.ResetAndLoadFromEveryState := by
  intro s
  refine ⟨⟨_, rfl, frame_resetEvent s⟩, fun rom hlen => ?fits, fun rom hlen => ?tooLarge⟩
  case fits =>
    have hend : 0x200 + rom.length ≤ 4096 := by omega
    refine ⟨_, if_pos hlen, ?_, fun k hk => read_writeBytes_add rfl hend hk, memKept_writeBytes rfl hend rfl rfl⟩
    exact ((frame_resetEvent s).mono (by decide)).trans (frame_setMem (by decide))
  case tooLarge =>
    refine ⟨_, if_neg (Nat.not_le.2 hlen), rfl, ?_⟩
    exact ((frame_resetEvent s).mono (by decide)).trans ((frame_raise _ _).mono (by decide))

/-- Settles O13. -/
theorem invariantsHoldAtReset : Obligations.InvariantsHoldAtReset :=
  ⟨rfl, fun hwait => (nomatch hwait), rfl, by decide, by decide⟩

/-! ## What every move keeps -/

theorem tickEvent_eq_withInputs (s : State) : ∃ d b, tickEvent s = s.withInputs d b s.key s.schedule := by
  cases hf : s.fault.faulted with
  | true => exact ⟨s.dt, s.st, tickEvent_faulted s hf⟩
  | false => exact ⟨_, _, tickEvent_running s hf⟩

theorem step_keeps_of_core {P : State → Prop}
    (hinputs : ∀ s d b key es, P s → P (s.withInputs d b key es))
    (hcore : ∀ s t, P s → stepEvent s = .next t → P t)
    (hreset : ∀ s, P (resetEvent s))
    (hload : ∀ rom s t, loadEvent rom (resetEvent s) = .next t → P t)
    {s t : State} (hs : P s) (h : step s = .next t) : P t := by
  refine step_keeps (fun s es hs => hinputs s s.dt s.st s.key es hs) (fun e s t hs h => ?_) s t hs h
  cases e with
  | step => exact hcore s t hs h
  | tick =>
    obtain ⟨d, b, htick⟩ := tickEvent_eq_withInputs s
    cases h
    rw [htick]
    exact hinputs s d b s.key s.schedule hs
  | keyIn key =>
    cases h
    exact hinputs s s.dt s.st key s.schedule hs
  | reset =>
    cases h
    exact hreset s
  | resetLoad rom => exact hload rom s t h

/-! ### The canonical form of memory -/

theorem stepEvent_memWf {s t : State} (hm : s.memWf) (h : stepEvent s = .next t) : t.memWf := by
  rcases stepEvent_cases s t h with ⟨-, rfl⟩ | ⟨-, -, rfl⟩ | ⟨-, -, rfl⟩ | ⟨w, -, -, -, rfl⟩ | ⟨w, i, -, -, -, hexec⟩
  · exact hm
  · rcases observeKeys_cases s with ⟨-, ho⟩ | ⟨k, -, ho⟩ <;> rw [ho] <;> exact hm
  · exact hm
  · exact hm
  · exact exec_memWf hm hexec

/-- Settles O14. -/
theorem movesKeepMemoryCanonical : Obligations.MovesKeepMemoryCanonical := by
  intro s t hs h
  refine step_keeps_of_core (P := State.memWf) (fun _ _ _ _ _ hs => hs) (fun _ _ => stepEvent_memWf) (fun _ => rfl)
    (fun rom s t h => ?load) hs h
  case load =>
    rcases loadEvent_cases (resetEvent s) rom with ⟨hlen, hload⟩ | ⟨-, hload⟩
    · cases hload.symm.trans h
      exact Memory.wf_writeBytes rom [] Config.romBase rfl (Nat.add_le_of_le_sub' (by decide) hlen)
    · cases hload.symm.trans h
      rfl

/-! ### The wait register -/

theorem exec_mode_cases {i : Instr} {s t : State} (h : exec i s = .next t) :
    t.mode = s.mode ∨ ∃ x, i = .ldVxK x ∧ t = { s with waitReg := x, mode := .waitingForKey } := by
  by_cases hi : Item.mode ∈ itemsWritten i
  · cases i with
    | ldVxK x => cases h; exact .inr ⟨x, rfl, rfl⟩
    | _ => simp [itemsWritten] at hi
  · exact .inl (exec_frame h .mode hi)

theorem waitMatchesMemory_of_running {s : State} (h : s.mode = .running) : s.waitMatchesMemory := by
  intro hwait
  rw [h] at hwait
  cases hwait

theorem stepEvent_waitMatchesMemory {s t : State} (hs : s.waitMatchesMemory) (h : stepEvent s = .next t) :
    t.waitMatchesMemory := by
  rcases stepEvent_cases s t h with ⟨-, rfl⟩ | ⟨-, -, rfl⟩ | ⟨⟨-, hm⟩, -, rfl⟩ | ⟨w, ⟨-, hm⟩, -, -, rfl⟩ |
    ⟨w, i, ⟨-, hm⟩, hf, hd, hexec⟩
  · exact hs
  · rcases observeKeys_cases s with ⟨-, ho⟩ | ⟨k, -, ho⟩ <;> rw [ho]
    · exact hs
    · exact waitMatchesMemory_of_running rfl
  · exact waitMatchesMemory_of_running hm
  · exact waitMatchesMemory_of_running hm
  · rcases exec_mode_cases hexec with hsame | ⟨x, rfl, rfl⟩
    · exact waitMatchesMemory_of_running (hsame.trans hm)
    · obtain ⟨hw, -⟩ := encode_of_decodeWord hd
      exact fun _ => hf.trans (congrArg some hw.symm)

theorem mode_of_resetLoad {rom : List Byte} {s t : State} (h : loadEvent rom (resetEvent s) = .next t) :
    t.mode = .running := by
  rcases loadEvent_cases (resetEvent s) rom with ⟨-, hload⟩ | ⟨-, hload⟩
  · cases hload.symm.trans h
    rfl
  · cases hload.symm.trans h
    rfl

/-- Settles O15: FX0A enters the wait with PC at itself, and nothing moves PC or stores before the wait ends. -/
theorem movesKeepTheWaitRegisterTrue : Obligations.MovesKeepTheWaitRegisterTrue := fun _ _ =>
  step_keeps_of_core (fun _ _ _ _ _ hs => hs) (fun _ _ => stepEvent_waitMatchesMemory)
    (fun _ => waitMatchesMemory_of_running rfl) (fun _ _ _ h => waitMatchesMemory_of_running (mode_of_resetLoad h))

/-! ### The fault record -/

theorem fault_eq_clear_of_noFault {s : State} (hs : s.faultExplained) (hn : s.noFault) : s.fault = .clear := by
  unfold State.faultExplained at hs
  split at hs
  case h_1 => exact hs
  all_goals
    obtain ⟨hfaulted, -⟩ := hs
    exact absurd (hfaulted.symm.trans hn) (by decide)

theorem faultExplained_of_clear {s : State} (h : s.fault = .clear) : s.faultExplained := by
  unfold State.faultExplained
  rw [h]
  rfl

/-- The record that an instruction of its own writes is true: the word at PC is its encoding. -/
theorem faultExplained_of_faultsWith {i : Instr} {s : State} {c : FaultCause} (hf : s.fetch = some (encode i))
    (hd : decodeWord (encode i) = some i) (hwith : FaultsWith i s c) :
    State.faultExplained { s with fault := ⟨true, c, encode i, s.pc⟩ } := by
  rcases hwith with ⟨rfl, nnn, rfl⟩ | ⟨rfl, rfl, hsp⟩ | ⟨rfl, ⟨nnn, rfl⟩, hsp⟩ | ⟨rfl, hbeyond⟩
  · exact ⟨rfl, rfl, hf, (illegalWordsAreThoseWithoutMeaning _).2 (.inr ⟨nnn, hd⟩)⟩
  · exact ⟨rfl, rfl, hf, rfl, hsp⟩
  · exact ⟨rfl, rfl, hf, ⟨nnn, rfl⟩, hsp⟩
  · refine ⟨rfl, rfl, .inr ⟨hf, ?_⟩⟩
    rcases hbeyond with ⟨x, y, n, rfl, hn, hi⟩ | ⟨x, rfl, hi⟩ | ⟨x, rfl | rfl, hi⟩
    · exact .inl ⟨x, y, n, rfl, hn, hi⟩
    · exact .inr (.inl ⟨x, rfl, hi⟩)
    · exact .inr (.inr ⟨x, .inl rfl, hi⟩)
    · exact .inr (.inr ⟨x, .inr rfl, hi⟩)

theorem stepEvent_faultExplained {s t : State} (hs : s.faultExplained) (h : stepEvent s = .next t) :
    t.faultExplained := by
  rcases stepEvent_cases s t h with ⟨-, rfl⟩ | ⟨hn, -, rfl⟩ | ⟨-, hf, rfl⟩ | ⟨w, -, hf, hd, rfl⟩ |
    ⟨w, i, ⟨hn, -⟩, hf, hd, hexec⟩
  · exact hs
  · exact faultExplained_of_clear ((observeKeys_fault s).trans (fault_eq_clear_of_noFault hs hn))
  · refine ⟨rfl, rfl, .inl ⟨rfl, ?_⟩⟩
    rcases s.fetch_cases with ⟨-, hsome⟩ | ⟨hpc, -⟩
    · rw [hf] at hsome
      cases hsome
    · exact Nat.succ_le_succ hpc
  · exact ⟨rfl, rfl, hf, (illegalWordsAreThoseWithoutMeaning w).2 (.inl hd)⟩
  · obtain ⟨rfl, -⟩ := encode_of_decodeWord hd
    rcases exec_fault_cases i s t hexec with hsame | ⟨c, rfl, hwith⟩
    · exact faultExplained_of_clear (hsame.trans (fault_eq_clear_of_noFault hs hn))
    · exact faultExplained_of_faultsWith hf hd hwith

/-- Settles O16. -/
theorem movesKeepTheFaultRecordTrue : Obligations.MovesKeepTheFaultRecordTrue := by
  intro s t hs h
  refine step_keeps_of_core (P := State.faultExplained) (fun _ _ _ _ _ hs => hs) (fun _ _ => stepEvent_faultExplained)
    (fun _ => faultExplained_of_clear rfl) (fun rom s t h => ?load) hs h
  case load =>
    rcases loadEvent_cases (resetEvent s) rom with ⟨-, hload⟩ | ⟨-, hload⟩
    · cases hload.symm.trans h
      exact faultExplained_of_clear rfl
    · cases hload.symm.trans h
      exact ⟨rfl, rfl, rfl, rfl⟩

/-! ### The bounds of PC and of the return addresses -/

theorem toNat_add_of_le {a : Word} {n : Nat} (ha : a.toNat ≤ 4094) (hn : n ≤ 4) :
    (a + BitVec.ofNat 16 n).toNat = a.toNat + n := by
  rw [BitVec.toNat_add, BitVec.toNat_ofNat]
  omega

theorem toNat_add_two {a : Word} (ha : a.toNat ≤ 4094) : (a + 2).toNat = a.toNat + 2 :=
  toNat_add_of_le ha (by decide)

theorem toNat_add_four {a : Word} (ha : a.toNat ≤ 4094) : (a + 4).toNat = a.toNat + 4 :=
  toNat_add_of_le ha (by decide)

theorem toNat_skipIf_pc_le {s : State} (hpc : s.pc.toNat ≤ 4094) (c : Bool) : (s.skipIf c).pc.toNat ≤ 0x10FE := by
  rw [State.skipIf_pc]
  split
  · rw [toNat_add_four hpc]; omega
  · rw [toNat_add_two hpc]; omega

theorem toNat_advance_pc_le {s : State} (hpc : s.pc.toNat ≤ 4094) : s.advance.pc.toNat ≤ 0x10FE := by
  rw [State.advance_pc, toNat_add_two hpc]
  omega

theorem toNat_zext16_le (nnn : BitVec 12) : (zext16 nnn).toNat ≤ 0x10FE := by
  rw [toNat_zext16 (by decide)]
  exact nnn.isLt.le.trans (by decide)

/-- From a fetched instruction PC goes two or four on, to a return address, or to the target of a jump. -/
theorem exec_pc_le {i : Instr} {s t : State} (hpc : s.pc.toNat ≤ 4094) (hs : s.pcBounded) (h : exec i s = .next t) :
    t.pc.toNat ≤ 0x10FE := by
  obtain ⟨hkept, hstack⟩ := hs
  cases i with
  | sys | ldVxK =>
    cases h
    exact hkept
  | ret =>
    rcases exec_ret_cases h with ⟨-, rfl⟩ | ⟨hsp, rfl⟩
    · exact hkept
    · exact (hstack ⟨s.sp.val - 1, by have := s.sp.isLt; omega⟩).trans (by decide)
  | jp nnn =>
    cases h
    exact toNat_zext16_le nnn
  | jpV0 nnn =>
    cases h
    rw [State.jump_pc, toNat_zext16_add]
    have hnnn := nnn.isLt
    have hv := (s.getV 0).isLt
    omega
  | call nnn =>
    rcases exec_call_cases h with ⟨-, rfl⟩ | ⟨-, rfl⟩
    · exact hkept
    · exact toNat_zext16_le nnn
  | seImm | sneImm | seReg | sneReg | skp | sknp =>
    cases h
    exact toNat_skipIf_pc_le hpc _
  | drw =>
    rcases exec_drw_cases h with ⟨-, -, rfl⟩ | ⟨-, rfl⟩
    · exact hkept
    · exact toNat_advance_pc_le hpc
  | ldB =>
    rcases exec_ldB_cases h with ⟨-, rfl⟩ | ⟨-, rfl⟩
    · exact hkept
    · exact toNat_advance_pc_le hpc
  | ldMemVx =>
    rcases exec_ldMemVx_cases h with ⟨-, rfl⟩ | ⟨-, rfl⟩
    · exact hkept
    · exact toNat_advance_pc_le hpc
  | ldVxMem =>
    rcases exec_ldVxMem_cases h with ⟨-, rfl⟩ | ⟨-, rfl⟩
    · exact hkept
    · exact toNat_advance_pc_le ((congrArg BitVec.toNat (State.setVs_pc s 0 _)).trans_le hpc)
  | _ =>
    cases h
    exact toNat_advance_pc_le hpc

/-- Only CALL writes the stack, and the return address it pushes is two past an instruction in memory. -/
theorem exec_stack_le {i : Instr} {s t : State} (hpc : s.pc.toNat ≤ 4094) (hs : s.pcBounded) (h : exec i s = .next t)
    (k : Fin Config.stackDepth) : (t.stack[k.val]).toNat ≤ 4096 := by
  obtain ⟨-, hstack⟩ := hs
  by_cases hi : Item.stack ∈ itemsWritten i
  · cases i with
    | call nnn =>
      rcases exec_call_cases h with ⟨-, rfl⟩ | ⟨hsp, rfl⟩
      · exact hstack k
      · rw [State.jump_stack, Vector.getElem_set]
        split
        · rw [toNat_add_two hpc]; omega
        · exact hstack k
    | _ => simp [itemsWritten] at hi
  · have hsame : t.stack = s.stack := exec_frame h .stack hi
    rw [hsame]
    exact hstack k

theorem stepEvent_pcBounded {s t : State} (hwait : s.waitMatchesMemory) (hs : s.pcBounded) (h : stepEvent s = .next t) :
    t.pcBounded := by
  rcases stepEvent_cases s t h with ⟨-, rfl⟩ | ⟨-, hm, rfl⟩ | ⟨-, -, rfl⟩ | ⟨w, -, -, -, rfl⟩ |
    ⟨w, i, -, hf, -, hexec⟩
  · exact hs
  · rcases observeKeys_cases s with ⟨-, ho⟩ | ⟨k, -, ho⟩ <;> rw [ho]
    · exact hs
    · exact ⟨toNat_advance_pc_le (pc_le_of_fetch (hwait hm)), hs.2⟩
  · exact hs
  · exact hs
  · have hpc := pc_le_of_fetch hf
    exact ⟨exec_pc_le hpc hs hexec, exec_stack_le hpc hs hexec⟩

theorem pcBounded_resetEvent (s : State) : (resetEvent s).pcBounded := invariantsHoldAtReset.2.2.2

/-- Settles O17: while the engine waits, the word at PC is an FX0A, so the step past it starts inside memory too. -/
theorem movesKeepPcBounded : Obligations.MovesKeepPcBounded := by
  intro s t hwait hs h
  refine (step_keeps_of_core (P := fun s => s.waitMatchesMemory ∧ s.pcBounded) (fun _ _ _ _ _ hs => hs)
    (fun _ _ hs h => ⟨stepEvent_waitMatchesMemory hs.1 h, stepEvent_pcBounded hs.1 hs.2 h⟩)
    (fun s => ⟨waitMatchesMemory_of_running rfl, pcBounded_resetEvent s⟩) (fun rom s t h => ?load) ⟨hwait, hs⟩ h).2
  case load =>
    refine ⟨waitMatchesMemory_of_running (mode_of_resetLoad h), ?_⟩
    rcases loadEvent_cases (resetEvent s) rom with ⟨-, hload⟩ | ⟨-, hload⟩
    · cases hload.symm.trans h
      exact pcBounded_resetEvent s
    · cases hload.symm.trans h
      exact pcBounded_resetEvent s

/-! ## Faults are precise, and final until a reset (`60_exceptions.md` R152, R153) -/

theorem faultsWith_cause {i : Instr} {s : State} {c : FaultCause} (h : FaultsWith i s c) :
    c ≠ .none ∧ c ≠ .romTooLarge := by
  rcases h with ⟨rfl, -⟩ | ⟨rfl, -⟩ | ⟨rfl, -⟩ | ⟨rfl, -⟩ <;> decide

theorem status_of_faulted {s : State} (h : s.fault.faulted = true) : s.status = .fault := if_pos h

/-- Settles O18. -/
theorem faultsArePrecise : Obligations.FaultsArePrecise := by
  intro s t hnext hs h ht
  rw [step_of_coreNext hnext] at h
  have hstatus := status_of_faulted ht
  rcases stepEvent_cases s t h with ⟨hf, -⟩ | ⟨-, -, rfl⟩ | ⟨-, -, rfl⟩ | ⟨w, -, -, -, rfl⟩ |
    ⟨w, i, -, -, -, hexec⟩
  · exact absurd (hf.symm.trans hs) (by decide)
  · rw [observeKeys_fault] at ht
    exact absurd (ht.symm.trans hs) (by decide)
  · exact ⟨rfl, rfl, nofun, nofun, hstatus⟩
  · exact ⟨rfl, rfl, nofun, nofun, hstatus⟩
  · rcases exec_fault_cases i s t hexec with hsame | ⟨c, rfl, hwith⟩
    · rw [hsame] at ht
      exact absurd (ht.symm.trans hs) (by decide)
    · obtain ⟨hnone, hrom⟩ := faultsWith_cause hwith
      exact ⟨rfl, rfl, hnone, hrom, hstatus⟩

theorem deliver_of_faulted {e : AgentEvent} {s t : State} (he : e.keepsSession = true) (hs : s.fault.faulted = true)
    (h : deliver e s = .next t) : t = { s with key := t.key } := by
  cases e with
  | step => cases (stepEvent_of_faulted hs).symm.trans h; rfl
  | tick =>
    cases h
    rw [tickEvent_faulted s hs]
  | keyIn => cases h; rfl
  | reset | resetLoad => cases he

/-- Settles O19. -/
theorem aFaultedMachineStandsStill : Obligations.AFaultedMachineStandsStill := by
  intro es s t hes hs h
  have hkept := deliverAll_keeps (P := fun u => u = { s with key := u.key })
    (ok := fun e => e.keepsSession = true) (fun e u u' he hu hdel => ?each) es s t hes rfl h
  case each =>
    have hfaulted : u.fault.faulted = true := by rw [hu]; exact hs
    have hu' := deliver_of_faulted he hfaulted hdel
    rw [hu] at hu'
    exact hu'
  refine ⟨hkept, status_of_faulted ?_⟩
  rw [hkept]
  exact hs

end Sys2Proof.Machine

/-! The timers, the key latch, the key wait, `display_dirty` and the end of a run (`10_state.md` R18 to R21,
`45_timer_key.md`, `60_exceptions.md` R159, R162, `70_reset_and_hazards.md` R189). -/

namespace Sys2Proof.Machine

/-! ## Timers -/

theorem toNat_timerTick (b : Byte) : (timerTick b).toNat = b.toNat - 1 := by
  unfold timerTick
  split
  next h => rw [h]; rfl
  next h =>
    have hpos : b.toNat ≠ 0 := fun e => h (BitVec.toNat_inj.1 e)
    have hb := b.isLt
    rw [BitVec.toNat_sub, show (1 : Byte).toNat = 1 from rfl]
    omega

section
variable {s : State}

theorem deliver_tick (hs : s.noFault) :
    ∃ t, deliver .tick s = .next t ∧ t.dt.toNat = s.dt.toNat - 1 ∧ t.st.toNat = s.st.toNat - 1 ∧
      Frame [.dt, .st] s t := by
  refine ⟨_, congrArg Host.Outcome.next (tickEvent_running s hs), toNat_timerTick s.dt, toNat_timerTick s.st, ?_⟩
  exact (frame_setDt (by decide)).trans (frame_setSt (s := { s with dt := timerTick s.dt }) (by decide))

theorem deliverAll_ticks (n : Nat) : ∀ {s : State}, s.noFault →
    ∃ t, deliverAll (List.replicate n .tick) s = .next t ∧ t.dt.toNat = s.dt.toNat - n ∧
      t.st.toNat = s.st.toNat - n ∧ Frame [.dt, .st] s t := by
  induction n with
  | zero => exact fun {s} _ => ⟨s, rfl, rfl, rfl, Frame.refl _ s⟩
  | succ n ih =>
    intro s hs
    obtain ⟨t, htick, hdt, hst, hframe⟩ := deliver_tick hs
    have ht : t.noFault := (congrArg FaultRecord.faulted (hframe .fault (by decide))).trans hs
    obtain ⟨u, hticks, hdt', hst', hframe'⟩ := ih ht
    refine ⟨u, ?_, by omega, by omega, hframe.trans hframe'⟩
    simp only [List.replicate_succ, deliverAll, htick, hticks]

end

/-- Settles O48. -/
theorem ticksDecrementTheTimers : Obligations.TicksDecrementTheTimers := fun _ hs =>
  ⟨deliver_tick hs, fun n => deliverAll_ticks n hs⟩

section
variable {i : Instr} {s t : State}

theorem exec_dt_cases (h : exec i s = .next t) : t.dt = s.dt ∨ ∃ x, i = .ldDtVx x ∧ t.dt = s.getV x := by
  by_cases hi : Item.dt ∈ itemsWritten i
  · cases i with
    | ldDtVx x => cases h; exact .inr ⟨x, rfl, rfl⟩
    | _ => simp [itemsWritten] at hi
  · exact .inl (exec_frame h .dt hi)

theorem exec_st_cases (h : exec i s = .next t) : t.st = s.st ∨ ∃ x, i = .ldStVx x ∧ t.st = s.getV x := by
  by_cases hi : Item.st ∈ itemsWritten i
  · cases i with
    | ldStVx x => cases h; exact .inr ⟨x, rfl, rfl⟩
    | _ => simp [itemsWritten] at hi
  · exact .inl (exec_frame h .st hi)

end

/-- Settles O50: what is written is in the frames, what is read in `exec_withInputs`. -/
theorem timersAreReadAndWrittenOnlyAsSaid : Obligations.TimersAreReadAndWrittenOnlyAsSaid := by
  refine ⟨rfl, rfl, fun s hs => ?_, fun i s t h => ⟨exec_dt_cases h, exec_st_cases h⟩,
    fun i s t d hi h => exec_setDt hi h, fun i s t d h => exec_setSt h, soundOn_iff⟩
  obtain ⟨t, htick, hdt, hst, -⟩ := deliver_tick hs
  exact ⟨t, htick, hdt, hst⟩

/-! ## The key wait -/

section
variable {s : State}

theorem step_of_waiting (hnext : s.coreNext) (hs : s.noFault) (hm : s.mode = .waitingForKey) :
    step s = .next (observeKeys s) := by
  rw [step_of_coreNext hnext, stepEvent_of_waiting hs hm]

theorem observeKeys_of_none (h : ∀ k < 16, s.key.getLsbD k = false) : observeKeys s = s := by
  rw [observeKeys, (lowestKey_none s.key).2 h]

/-- The wait ends: the lowest pressed key is in V[WAITREG], PC two on, the mode Running, and all else as it was. -/
theorem observeKeys_of_lowest {k : Nat} (hs : s.noFault) (hk : k < 16) (hdown : s.key.getLsbD k = true)
    (hlow : ∀ j < k, s.key.getLsbD j = false) :
    ((observeKeys s).getV s.waitReg).toNat = k ∧ (observeKeys s).pc = s.pc + 2 ∧ (observeKeys s).mode = .running ∧
      (observeKeys s).status = .running ∧ RegsKept [s.waitReg] s (observeKeys s) ∧
      Frame [.v, .pc, .mode] s (observeKeys s) := by
  have ho : observeKeys s = State.advance { s.setV s.waitReg (BitVec.ofNat 8 k) with mode := .running } := by
    rw [observeKeys, (lowestKey_some s.key k).2 ⟨hk, hdown, hlow⟩]
  have hstatus : (observeKeys s).status = .running := by
    rw [State.status, observeKeys_fault, hs, ho]
    rfl
  rw [ho] at hstatus ⊢
  refine ⟨?_, rfl, rfl, hstatus, regsKept_setV, ho ▸ frame_observeKeys s⟩
  have hvalue : (s.setV s.waitReg (BitVec.ofNat 8 k)).getV s.waitReg = BitVec.ofNat 8 k := State.getV_setV_self _ _ _
  refine (congrArg BitVec.toNat hvalue).trans ?_
  rw [BitVec.toNat_ofNat]
  omega

/-- A latch with a pressed key has a lowest one. -/
theorem exists_lowest_key {key : BitVec 16} (h : ∃ k < 16, key.getLsbD k = true) :
    ∃ k < 16, key.getLsbD k = true ∧ ∀ j < k, key.getLsbD j = false := by
  obtain ⟨k, hk, hdown⟩ := h
  cases hlow : lowestKey key with
  | none =>
    rw [(lowestKey_none key).1 hlow k hk] at hdown
    cases hdown
  | some m => exact ⟨m, (lowestKey_some key m).1 hlow⟩

end

/-- Settles O52. -/
theorem keyWaitEndsOnTheLowestKey : Obligations.KeyWaitEndsOnTheLowestKey := by
  intro s hnext hs hm
  rw [step_of_waiting hnext hs hm]
  exact ⟨fun hnone => congrArg _ (observeKeys_of_none hnone),
    fun k hk hdown hlow => ⟨_, rfl, observeKeys_of_lowest hs hk hdown hlow⟩⟩

/-- Settles O53: of the core's steps, FX0A is the one instruction that writes the mode, and the observation the other
place. -/
theorem modeChangesOnlyAsSaid : Obligations.ModeChangesOnlyAsSaid := by
  refine ⟨rfl, fun s t hnext h hm hm' => ?enters, fun s t hnext hs h hm => ?leaves, fun s t h => ?tick,
    fun s t key h => ?key⟩
  case enters =>
    rw [step_of_coreNext hnext] at h
    rcases stepEvent_cases s t h with ⟨-, rfl⟩ | ⟨-, hwait, -⟩ | ⟨-, -, rfl⟩ | ⟨w, -, -, -, rfl⟩ |
      ⟨w, i, hr, hf, hd, hexec⟩
    case inr.inr.inr.inr =>
      rcases exec_mode_cases hexec with hsame | ⟨x, rfl, -⟩
      · rw [hsame, hm] at hm'
        cases hm'
      · exact ⟨x, hnext, hr, Option.bind_eq_some_iff.2 ⟨w, hf, hd⟩⟩
    case inr.inl => rw [hm] at hwait; cases hwait
    all_goals cases hm.symm.trans hm'
  case leaves =>
    rw [step_of_waiting hnext hs hm] at h
    cases h
    by_cases hkey : ∃ k < 16, s.key.getLsbD k = true
    · obtain ⟨k, hk, hdown, hlow⟩ := exists_lowest_key hkey
      obtain ⟨hvalue, -, hmode, -⟩ := observeKeys_of_lowest hs hk hdown hlow
      rw [hmode, hvalue]
      exact ⟨⟨fun _ => hkey, fun _ => rfl⟩, fun _ => hdown, nofun⟩
    · have hnone : ∀ k < 16, s.key.getLsbD k = false := by simpa using hkey
      rw [observeKeys_of_none hnone, hm]
      exact ⟨⟨nofun, fun h => absurd h hkey⟩, nofun, fun _ => rfl⟩
  case tick =>
    cases h
    unfold tickEvent
    split <;> rfl
  case key =>
    cases h
    rfl

/-- Settles O54: the two skips are the instructions that `exec_withInputs` excepts. -/
theorem keysAreWrittenOutsideAndReadInThreePlaces : Obligations.KeysAreWrittenOutsideAndReadInThreePlaces := by
  refine ⟨fun key s => ⟨_, rfl, rfl, ?frame⟩, fun s t hnext h => ?step,
    fun i s t key hskp hsknp => exec_setKey hskp hsknp⟩
  case frame =>
    rw [frame_iff]
    simp [keyEvent, State.getV]
  case step =>
    rw [step_of_coreNext hnext] at h
    exact stepEvent_same (it := .key) h (by decide) fun _ _ _ => exec_key_eq

/-! ## `display_dirty` -/

section
variable {i : Instr} {s t : State}

theorem drawsDisplay_iff : drawsDisplay i = true ↔ i = .cls ∨ ∃ x y n, i = .drw x y n := by
  cases i <;> simp [drawsDisplay]

theorem disp_mem_itemsWritten_iff : Item.disp ∈ itemsWritten i ↔ drawsDisplay i = true := by
  cases i <;> simp [itemsWritten, drawsDisplay]

/-- The output is 1 only where an instruction that draws is the next one and completes. -/
theorem exists_draw_of_displayDirty (h : s.displayDirty = true) :
    ∃ i u, s.ready ∧ s.fetch.bind decodeWord = some i ∧ drawsDisplay i = true ∧ exec i s = .next u ∧ u.noFault := by
  simp only [State.displayDirty, Bool.and_eq_true, Bool.not_eq_true', beq_iff_eq] at h
  obtain ⟨⟨hs, hm⟩, h⟩ := h
  split at h
  next => cases h
  next i hi =>
    obtain ⟨u, hexec⟩ := exec_next i s
    simp only [hexec, Bool.and_eq_true, Bool.not_eq_true'] at h
    exact ⟨i, u, ⟨hs, hm⟩, hi, h.1, hexec, h.2⟩

/-- An instruction that takes a fault leaves the display, whatever it would have drawn. -/
theorem exec_disp_eq_of_faulted (h : exec i s = .next t) (hs : s.noFault) (ht : t.fault.faulted = true) :
    t.disp = s.disp := by
  rcases exec_fault_cases i s t h with hsame | ⟨c, rfl, -⟩
  · rw [hsame] at ht
    exact absurd (ht.symm.trans hs) (by decide)
  · rfl

end

/-- Settles O47. -/
theorem displayDirtyTellsEveryChange : Obligations.DisplayDirtyTellsEveryChange := by
  intro s t hnext h
  rw [step_of_coreNext hnext] at h
  refine ⟨⟨fun hdirty => ?draws, fun ⟨ht, habout⟩ => ?dirty⟩, fun hclean => ?kept⟩
  case draws =>
    obtain ⟨i, u, hr, hi, hdraws, hexec, hu⟩ := exists_draw_of_displayDirty hdirty
    cases h.symm.trans ((stepEvent_of_about hr hi).trans hexec)
    refine ⟨hu, ?_⟩
    rcases drawsDisplay_iff.1 hdraws with rfl | ⟨x, y, n, rfl⟩
    · exact .inl ⟨hnext, hr, hi⟩
    · exact .inr ⟨x, y, n, hnext, hr, hi⟩
  case dirty =>
    have hcompletes : ∀ i, s.about i → drawsDisplay i = true → s.displayDirty = true := fun i ⟨_, hr, hi⟩ hdraws =>
      displayDirty_of_completes hr hi hdraws ((stepEvent_of_about hr hi).symm.trans h) ht
    rcases habout with habout | ⟨x, y, n, habout⟩
    · exact hcompletes _ habout rfl
    · exact hcompletes _ habout rfl
  case kept =>
    refine stepEvent_same (it := .disp) h (by decide) fun i hr hi hexec => ?_
    by_cases hdraws : drawsDisplay i = true
    · refine exec_disp_eq_of_faulted hexec hr.1 (Bool.of_not_eq_false fun ht => ?_)
      exact absurd ((displayDirty_of_completes hr hi hdraws hexec ht).symm.trans hclean) (by decide)
    · exact exec_frame hexec .disp (mt disp_mem_itemsWritten_iff.1 hdraws)

/-! ## The end of a run -/

section
variable {s : State}

/-- A jump to itself answers the state it starts from. -/
theorem stepEvent_of_atSelfJump (h : s.atSelfJump) : stepEvent s = .next s := by
  obtain ⟨hr, nnn, hf, hpc⟩ := h
  rw [stepEvent_ready hr hf (Laws.RoundTrip.jp nnn rfl)]
  change Host.Outcome.next (s.jump (zext16 nnn)) = _
  rw [hpc]
  rfl

theorem deliver_of_atSelfJump {e : AgentEvent} (he : e.keepsSession = true) (h : s.atSelfJump) :
    ∃ d b key, deliver e s = .next (s.withInputs d b key s.schedule) := by
  cases e with
  | step => exact ⟨s.dt, s.st, s.key, stepEvent_of_atSelfJump h⟩
  | tick =>
    obtain ⟨d, b, htick⟩ := tickEvent_eq_withInputs s
    exact ⟨d, b, s.key, congrArg Host.Outcome.next htick⟩
  | keyIn key => exact ⟨s.dt, s.st, key, rfl⟩
  | reset | resetLoad => cases he

end

/-- Settles O55: no move but a reset writes an item that the jump to itself reads. -/
theorem aSelfJumpIsTheEnd : Obligations.ASelfJumpIsTheEnd := by
  intro es
  induction es with
  | nil => exact fun s _ h => ⟨s, rfl, rfl, h, h.1.1⟩
  | cons e es ih =>
    intro s hes h
    obtain ⟨d, b, key, hdel⟩ := deliver_of_atSelfJump (hes e List.mem_cons_self) h
    obtain ⟨t, hall, hkept, hend, hsafe⟩ :=
      ih (s.withInputs d b key s.schedule) (fun e he => hes e (List.mem_cons_of_mem _ he)) h
    refine ⟨t, ?_, hkept, hend, h.1.1, _, hdel, hsafe⟩
    simp only [deliverAll, hdel, hall]

end Sys2Proof.Machine
